-- ==== Sys2Proof/Word.lean ====
section
/-! DEFINITION. The bit-vector types of 00_scope.md R10 and the status a response reports. -/
namespace Sys2Proof

/-- 00_scope.md R10. -/
abbrev U8 := BitVec 8
/-- 00_scope.md R10. -/
abbrev U32 := BitVec 32
/-- 00_scope.md R10. -/
abbrev U64 := BitVec 64
/-- A 64-bit vector read as a binary64 datum (00_scope.md R10, R14). -/
abbrev F64 := BitVec 64

/-- The outcome a response reports (60_exceptions.md R181). -/
inductive Status where
  | ok
  | invalidLength
  | divisionByZero
  | illegalCommand
  deriving DecidableEq, Repr

end Sys2Proof
end

