-- ==== Sys2Proof/Config.lean ====
section
/-! DEFINITION. The parameters of 00_scope.md R7 and R8 as named constants, the command whose word has the width they give, and the free values: constants without a body that stand for what the spec leaves open. -/
namespace Sys2Proof

/-- The frame has 8 bytes (00_scope.md R7). -/
abbrev Config.frameBytes : Nat := 8
/-- The frame has 64 bits (00_scope.md R7). -/
abbrev Config.frameBits : Nat := 64
/-- `LEN_MIN` (00_scope.md R7). -/
abbrev Config.lenMin : Nat := 1
/-- `LEN_MAX` (00_scope.md R7). -/
abbrev Config.lenMax : Nat := 64

/-- `CMD_WIDTH` (00_scope.md R8, decision D2). -/
abbrev Config.cmdWidth : Nat := 32
/-- `LEN_FIELD_WIDTH` (00_scope.md R8, 30_encoding.md R72, decision D3). -/
abbrev Config.lenFieldWidth : Nat := 7
/-- `STARTBIT_FIELD_WIDTH` (00_scope.md R8, 30_encoding.md R72, decision D3). -/
abbrev Config.startBitFieldWidth : Nat := 6
/-- `FRAC_FIELD_WIDTH` (00_scope.md R8, 30_encoding.md R72, decision D3). -/
abbrev Config.fracFieldWidth : Nat := 6

/-- The command word: `CMD_WIDTH` bits, one whole number (00_scope.md R8, 20_memory.md R49). -/
abbrev CmdWord := BitVec Config.cmdWidth

/-- What the host hands over at issue: the command word `CMD` and the three data operands (10_state.md R29). -/
structure Command where
  cmd    : CmdWord
  value  : U64
  factor : F64
  offset : F64
  deriving DecidableEq, Repr

/-- `STATUS` codes (60_exceptions.md R181, decision D5). -/
def Config.statusOk : BitVec 2 := 0
/-- `STATUS` codes (60_exceptions.md R181, decision D5). -/
def Config.statusInvalidLength : BitVec 2 := 1
/-- `STATUS` codes (60_exceptions.md R181, decision D5). -/
def Config.statusDivisionByZero : BitVec 2 := 2
/-- `STATUS` codes (60_exceptions.md R181, decision D5). -/
def Config.statusIllegalCommand : BitVec 2 := 3

/-- Where the big-endian walk goes after bit 0 of a byte (90_conflicts.md C1). -/
inductive BeWalk where
  /-- To bit 7 of the next lower byte: the prose of the source, and the spec's rule. -/
  | toPreviousByte
  /-- To bit 7 of the next higher byte: the reading that 90_conflicts.md C1 rejects. -/
  | toNextByte
  deriving DecidableEq, Repr

/-- `BE_WALK` (00_scope.md R8, decision D7). -/
def Config.beWalk : BeWalk := .toPreviousByte

/-- A binary interchange format of IEEE 754: one sign bit, then the exponent field, then the fraction (00_scope.md R14). -/
structure FloatFormat where
  expoBits : Nat
  fracBits : Nat
  deriving DecidableEq, Repr

/-- `FLOAT_FORMAT`: IEEE 754 binary64, 11 exponent bits and 52 fraction bits (00_scope.md R8, R14, decision D8). -/
abbrev Config.floatFormat : FloatFormat := ⟨11, 52⟩

/-- How a result that is not representable is rounded. -/
inductive Rounding where
  | nearestEven
  | towardZero
  deriving DecidableEq, Repr

/-- `ROUNDING` and `FUSED` of 00_scope.md R8, one record as decision D9 asks. -/
structure Numerics where
  rounding : Rounding
  fused    : Bool
  deriving DecidableEq, Repr

/-- Nearest, ties to even; the multiply rounds, then the add rounds (00_scope.md R8, decision D9). -/
def Config.numerics : Numerics := ⟨.nearestEven, false⟩

/-- `CVT_INT_WIDTH`: the width of the signed integer the float-to-raw conversion goes through (00_scope.md R8, decision D11). -/
abbrev Config.cvtIntWidth : Nat := 64

/-- What float-to-raw gives for a finite value outside the signed range of `cvtIntWidth` bits. -/
inductive CvtWrap where
  /-- The truncated integer modulo two to the width. -/
  | wraps
  /-- A free value: the cautious treatment that 93_implementation_defined.md U5 allows. -/
  | drawn
  deriving DecidableEq, Repr

/-- `CVT_WRAP` (00_scope.md R8, decision D12). -/
def Config.cvtWrap : CvtWrap := .wraps

/-- What a command with a valid length does whose span leaves the frame: the two treatments of 93_implementation_defined.md U1. -/
inductive SpanOverflow where
  /-- The command is answered OK, and what U1 does not fix is a free value. -/
  | drawn
  /-- The command has no meaning. -/
  | refused
  deriving DecidableEq, Repr

/-- `SPAN_OVERFLOW` (00_scope.md R8, decision D14). The spec leaves it open; of the two treatments the model takes the one in which the machine goes on (log entries 6 and 7). -/
def Config.spanOverflow : SpanOverflow := .drawn

/-! The free values. Each is applied to the draw counter of State, to the command at the port and to `FRAME64` before the command, so that nothing the spec leaves open is tied from one command to another. -/

/-- `CVT_NONFINITE`: float-to-raw of a value that is not finite (00_scope.md R15, decision D13, 93_implementation_defined.md U3). -/
opaque Config.cvtNonfinite : Nat → Command → U64 → U64

/-- The result of a reading command whose span leaves the frame (93_implementation_defined.md U1). -/
opaque Config.spanResult : Nat → Command → U64 → U64

/-- All eight frame bytes, as `FRAME64`, after a writing command whose span leaves the frame (93_implementation_defined.md U1). -/
opaque Config.spanFrame : Nat → Command → U64 → U64

/-- What the bits of the span hold after a reset during a store (10_state.md R34, 93_implementation_defined.md U11). -/
opaque Config.resetField : Nat → Command → U64 → U64

/-- The sign of a NaN result (93_implementation_defined.md U4). -/
opaque Config.nanSign : Nat → Command → U64 → Bool

/-- The fraction bits of a NaN result (93_implementation_defined.md U4); never used as all zeros. -/
opaque Config.nanFraction : Nat → Command → U64 → BitVec Config.floatFormat.fracBits

end Sys2Proof
end

