-- ==== Sys2Proof/Syntax.lean ====
section
/-! DEFINITION. The six commands of 30_encoding.md R70 and R74, one constructor per row of the opcode table. -/
namespace Sys2Proof

/-- A decoded command word. The descriptor fields are the numbers the word carries (30_encoding.md R73); the data operands `VALUE`, `FACTOR` and `OFFSET` are no part of the word (10_state.md R29). -/
inductive Instr where
  /-- `op` 0, 40_bitfield.md R108. -/
  | extract (bigEndian isSigned : Bool) (startBit length : Nat)
  /-- `op` 1, 40_bitfield.md R115. -/
  | store (bigEndian isSigned : Bool) (startBit length : Nat)
  /-- `op` 2, 41_physical.md R142. -/
  | decodeLinear (bigEndian isSigned : Bool) (startBit length : Nat)
  /-- `op` 3, 41_physical.md R146. -/
  | encodeLinear (bigEndian isSigned : Bool) (startBit length : Nat)
  /-- `op` 4, 42_fixedpoint.md R162. -/
  | decodeFixed (bigEndian isSigned : Bool) (startBit length fractionalBits : Nat)
  /-- `op` 5, 42_fixedpoint.md R166. -/
  | encodeFixed (bigEndian isSigned : Bool) (startBit length fractionalBits : Nat)
  deriving DecidableEq, Repr

/-- The `bigEndian` field, which every command has (30_encoding.md R71). -/
def Instr.bigEndian : Instr → Bool
  | .extract be _ _ _ | .store be _ _ _ | .decodeLinear be _ _ _ | .encodeLinear be _ _ _
  | .decodeFixed be _ _ _ _ | .encodeFixed be _ _ _ _ => be

/-- The `isSigned` field, which every command has (30_encoding.md R77). -/
def Instr.isSigned : Instr → Bool
  | .extract _ sg _ _ | .store _ sg _ _ | .decodeLinear _ sg _ _ | .encodeLinear _ sg _ _
  | .decodeFixed _ sg _ _ _ | .encodeFixed _ sg _ _ _ => sg

/-- The `startBit` field. -/
def Instr.startBit : Instr → Nat
  | .extract _ _ sb _ | .store _ _ sb _ | .decodeLinear _ _ sb _ | .encodeLinear _ _ sb _
  | .decodeFixed _ _ sb _ _ | .encodeFixed _ _ sb _ _ => sb

/-- The `length` field. -/
def Instr.length : Instr → Nat
  | .extract _ _ _ n | .store _ _ _ n | .decodeLinear _ _ _ n | .encodeLinear _ _ _ n
  | .decodeFixed _ _ _ n _ | .encodeFixed _ _ _ n _ => n

/-- The `fractionalBits` field; 0 for the commands that have no such parameter (30_encoding.md R71). -/
def Instr.fractionalBits : Instr → Nat
  | .extract _ _ _ _ | .store _ _ _ _ | .decodeLinear _ _ _ _ | .encodeLinear _ _ _ _ => 0
  | .decodeFixed _ _ _ _ fb | .encodeFixed _ _ _ _ fb => fb

/-- Whether the command mutates the frame (10_state.md R27). -/
def Instr.writes : Instr → Bool
  | .extract _ _ _ _ | .decodeLinear _ _ _ _ | .decodeFixed _ _ _ _ _ => false
  | .store _ _ _ _ | .encodeLinear _ _ _ _ | .encodeFixed _ _ _ _ _ => true

end Sys2Proof
end

