-- ==== Sys2Proof/WellFormed.lean ====
section
/-! DEFINITION. Which terms of Instr are commands a word can carry: every field fits the width 30_encoding.md R71 and R72 give it. -/
namespace Sys2Proof

/-- `startBit` is 0..63, `length` is 0..127, `fractionalBits` is 0..63 (30_encoding.md R71). A `length` of 0 or above 64 is well formed: it is a value the command rejects, not an encoding error (R77). -/
def Instr.wellFormed (i : Instr) : Bool :=
  decide (i.startBit < 2 ^ Config.startBitFieldWidth) &&
  decide (i.length < 2 ^ Config.lenFieldWidth) &&
  decide (i.fractionalBits < 2 ^ Config.fracFieldWidth)

end Sys2Proof
end

