-- ==== Sys2Proof/Decode.lean ====
section
/-! DEFINITION. The decoder, the encoder, the opcode rows with their masks, and the textual syntax (30_encoding.md). -/
namespace Sys2Proof

/-- Why a command word is illegal, one name for each condition of 30_encoding.md R76. -/
inductive DecodeError where
  /-- `rsv0`, bits 31:27, is not 0. -/
  | rsv0
  /-- `rsv1`, bit 15, is not 0. -/
  | rsv1
  /-- `rsv2`, bits 7:6, is not 0. -/
  | rsv2
  /-- `op` is 6 or 7. -/
  | reservedOp
  /-- `fractionalBits` is not 0 in a command that has no such parameter. -/
  | fractionalBits
  deriving DecidableEq, Repr

/-- A run of adjacent bits of the command word. -/
structure BitRange where
  lo    : Nat
  width : Nat
  deriving DecidableEq, Repr

/-- The fields of `CMD` (30_encoding.md R71). -/
def BitRange.rsv0 : BitRange := ⟨27, 5⟩
/-- Bits 26:24. -/
def BitRange.op : BitRange := ⟨24, 3⟩
/-- Bit 23. -/
def BitRange.bigEndian : BitRange := ⟨23, 1⟩
/-- Bit 22. -/
def BitRange.isSigned : BitRange := ⟨22, 1⟩
/-- Bits 21:16. -/
def BitRange.startBit : BitRange := ⟨16, Config.startBitFieldWidth⟩
/-- Bit 15. -/
def BitRange.rsv1 : BitRange := ⟨15, 1⟩
/-- Bits 14:8. -/
def BitRange.length : BitRange := ⟨8, Config.lenFieldWidth⟩
/-- Bits 7:6. -/
def BitRange.rsv2 : BitRange := ⟨6, 2⟩
/-- Bits 5:0. -/
def BitRange.fractionalBits : BitRange := ⟨0, Config.fracFieldWidth⟩

/-- A field is the unsigned integer its bits spell, nothing extended, scaled or reassembled (30_encoding.md R73). -/
def BitRange.read (r : BitRange) (w : CmdWord) : Nat := w.toNat / 2 ^ r.lo % 2 ^ r.width

/-- The commands without a `fractionalBits` parameter require that field to be 0 (30_encoding.md R71, R76). -/
def decodeNoFraction (w : CmdWord) (i : Instr) : Except DecodeError Instr :=
  if BitRange.fractionalBits.read w = 0 then .ok i else .error .fractionalBits

/-- The command a 32-bit word encodes, or why it is illegal: total on every word (30_encoding.md R74, R75, R76). -/
def decode (w : CmdWord) : Except DecodeError Instr :=
  if BitRange.rsv0.read w ≠ 0 then .error .rsv0
  else if BitRange.rsv1.read w ≠ 0 then .error .rsv1
  else if BitRange.rsv2.read w ≠ 0 then .error .rsv2
  else
    let be := BitRange.bigEndian.read w == 1
    let sg := BitRange.isSigned.read w == 1
    let sb := BitRange.startBit.read w
    let n := BitRange.length.read w
    match BitRange.op.read w with
    | 0 => decodeNoFraction w (.extract be sg sb n)
    | 1 => decodeNoFraction w (.store be sg sb n)
    | 2 => decodeNoFraction w (.decodeLinear be sg sb n)
    | 3 => decodeNoFraction w (.encodeLinear be sg sb n)
    | 4 => .ok (.decodeFixed be sg sb n (BitRange.fractionalBits.read w))
    | 5 => .ok (.encodeFixed be sg sb n (BitRange.fractionalBits.read w))
    | _ => .error .reservedOp

/-- The `op` number of a command (30_encoding.md R74). -/
def Instr.op : Instr → Nat
  | .extract _ _ _ _ => 0
  | .store _ _ _ _ => 1
  | .decodeLinear _ _ _ _ => 2
  | .encodeLinear _ _ _ _ => 3
  | .decodeFixed _ _ _ _ _ => 4
  | .encodeFixed _ _ _ _ _ => 5

/-- A field placed at its position. -/
def BitRange.place (r : BitRange) (v : Nat) : Nat := v * 2 ^ r.lo

/-- The command word: each field at its place, zeros elsewhere (30_encoding.md R75). -/
def encode (i : Instr) : CmdWord :=
  BitVec.ofNat Config.cmdWidth
    (BitRange.op.place i.op + BitRange.bigEndian.place i.bigEndian.toNat +
      BitRange.isSigned.place i.isSigned.toNat + BitRange.startBit.place i.startBit +
      BitRange.length.place i.length + BitRange.fractionalBits.place i.fractionalBits)

/-- One row of the match and mask table of 30_encoding.md R74. -/
structure OpcodeRow where
  mnemonic : String
  op       : Nat
  mask     : CmdWord
  pattern  : CmdWord
  deriving DecidableEq, Repr

/-- A word selects a row when `w & mask = match` (30_encoding.md R74). -/
def OpcodeRow.selects (r : OpcodeRow) (w : CmdWord) : Bool := w &&& r.mask == r.pattern

/-- The six rows of 30_encoding.md R74. -/
def opcodeRows : List OpcodeRow :=
  [⟨"EXTRACT", 0, 0xFF0080FF, 0x00000000⟩, ⟨"STORE", 1, 0xFF0080FF, 0x01000000⟩,
   ⟨"DECODE_LINEAR", 2, 0xFF0080FF, 0x02000000⟩, ⟨"ENCODE_LINEAR", 3, 0xFF0080FF, 0x03000000⟩,
   ⟨"DECODE_FIXED", 4, 0xFF0080C0, 0x04000000⟩, ⟨"ENCODE_FIXED", 5, 0xFF0080C0, 0x05000000⟩]

/-- The instruction the decoder reads from a word numbered as the opcode table numbers it: one 32-bit word, bit 0 least significant (30_encoding.md R71, R78); bits at and above `nbits` are 0. -/
def decodeTableWord (nbits w : Nat) : Option Instr :=
  match decode (BitVec.ofNat Config.cmdWidth (w % 2 ^ nbits)) with
  | .ok i => some i
  | .error _ => none

/-! The textual syntax of 30_encoding.md R79. -/

/-- The mnemonic of a command. -/
def Instr.mnemonic : Instr → String
  | .extract _ _ _ _ => "EXTRACT"
  | .store _ _ _ _ => "STORE"
  | .decodeLinear _ _ _ _ => "DECODE_LINEAR"
  | .encodeLinear _ _ _ _ => "ENCODE_LINEAR"
  | .decodeFixed _ _ _ _ _ => "DECODE_FIXED"
  | .encodeFixed _ _ _ _ _ => "ENCODE_FIXED"

/-- A 64-bit operand as a `0x`-prefixed 16-digit pattern. -/
def hexOperand (v : U64) : String :=
  "0x" ++ String.ofList ((List.range 16).map fun k => Nat.digitChar (v.toNat / 16 ^ (15 - k) % 16))

/-- The data operands a command reads, by name (30_encoding.md R74, R79). -/
def Instr.operandText (i : Instr) (c : Command) : String :=
  match i with
  | .extract _ _ _ _ | .decodeFixed _ _ _ _ _ => ""
  | .store _ _ _ _ => ", value=" ++ hexOperand c.value
  | .decodeLinear _ _ _ _ => ", factor=" ++ hexOperand c.factor ++ ", offset=" ++ hexOperand c.offset
  | .encodeLinear _ _ _ _ =>
    ", physical=" ++ hexOperand c.value ++ ", factor=" ++ hexOperand c.factor ++
      ", offset=" ++ hexOperand c.offset
  | .encodeFixed _ _ _ _ _ => ", physical=" ++ hexOperand c.value

/-- `fractionalBits` is written for DECODE_FIXED and ENCODE_FIXED only (30_encoding.md R79). -/
def Instr.fractionText : Instr → String
  | .extract _ _ _ _ | .store _ _ _ _ | .decodeLinear _ _ _ _ | .encodeLinear _ _ _ _ => ""
  | .decodeFixed _ _ _ _ fb | .encodeFixed _ _ _ _ fb => ", " ++ toString fb

/-- A command as 30_encoding.md R79 writes it, float operands as bit patterns. -/
def Instr.render (i : Instr) (c : Command) : String :=
  i.mnemonic ++ (if i.bigEndian then ".BE" else ".LE") ++ (if i.isSigned then ".S " else ".U ") ++
    toString i.startBit ++ ", " ++ toString i.length ++ i.fractionText ++ i.operandText c

end Sys2Proof
end

