-- ==== Sys2Proof/Machine/Bits.lean ====
section
/-! DEFINITION. Masks, sign extension and shifts by a signed amount (00_scope.md R11). -/
namespace Sys2Proof.Machine

/-- `mask(n) = 2^n - 1`, by the subtraction, so that nothing is shifted by its own width (00_scope.md R11). -/
def mask (N n : Nat) : BitVec N := BitVec.ofNat N (2 ^ n - 1)

/-- The masking step (40_bitfield.md R106, R110). -/
def maskTo (n : Nat) (v : U64) : U64 := v &&& mask 64 n

/-- The sign-extension step: bits `n` to 63 become 1 when the field is signed and its bit `n-1` is set (40_bitfield.md R107). -/
def signStep (isSigned : Bool) (n : Nat) (v : U64) : U64 :=
  if isSigned && v.getLsbD (n - 1) then v ||| (mask 64 64 - mask 64 n) else v

/-- `n * 2^k` for `k ≥ 0`, and `n` for a negative `k`: the factor a power of two contributes to a numerator. -/
def scaleUp (n : Nat) (k : Int) : Nat := n * 2 ^ k.toNat

end Sys2Proof.Machine
end

