-- ==== Sys2Proof/Machine/Float.lean ====
section
/-! DEFINITION. Floating-point arithmetic in the format of `Config.floatFormat`, binary64: exact and then rounded once per operation (00_scope.md R14, 41_physical.md R149, decision D9). -/
namespace Sys2Proof.Machine

/-- What a binary64 pattern stands for. `fin neg m e` is the number `m * 2^e`, negated when `neg`; a zero keeps its sign. The NaN patterns are one value: no rule gives a result that depends on which NaN an operand is. -/
inductive Fp where
  | nan
  | inf (neg : Bool)
  | fin (neg : Bool) (m : Nat) (e : Int)
  deriving DecidableEq, Repr

/-! The numbers that follow from `FLOAT_FORMAT`, and their values for binary64 (00_scope.md R14). -/

/-- The width of the fraction field: 52. -/
abbrev Fp.fracBits : Nat := Config.floatFormat.fracBits
/-- The width of the exponent field: 11. -/
abbrev Fp.expoBits : Nat := Config.floatFormat.expoBits
/-- The number of the sign bit: 63. -/
abbrev Fp.signBit : Nat := Fp.expoBits + Fp.fracBits
/-- The exponent bias: 1023. -/
abbrev Fp.bias : Nat := 2 ^ (Fp.expoBits - 1) - 1
/-- The exponent field of infinities and NaNs, all ones: 2047. -/
abbrev Fp.expoOnes : Nat := 2 ^ Fp.expoBits - 1
/-- The least significand of a normal number, its leading bit alone: `2^52`. -/
abbrev Fp.leading : Nat := 2 ^ Fp.fracBits
/-- The exponent of the least significant bit of a normal number is its exponent field less this: 1075. -/
abbrev Fp.expoShift : Nat := Fp.bias + Fp.fracBits
/-- The exponent of the least significant bit of a subnormal: -1074. -/
def Fp.eMin : Int := 1 - (Fp.expoShift : Int)
/-- The exponent of the least significant bit of the largest finite numbers: 971. -/
def Fp.eMax : Int := (Fp.expoOnes : Int) - 1 - (Fp.expoShift : Int)

/-- A signed zero in its canonical form. -/
def Fp.zero (neg : Bool) : Fp := .fin neg 0 Fp.eMin

/-- The reading of a pattern: the sign on top, then the exponent field with its bias, then the fraction; in binary64 bits 63, 62:52 and 51:0 (00_scope.md R14). -/
def Fp.ofBits (x : F64) : Fp :=
  let neg := x.getLsbD Fp.signBit
  let expo := (x.extractLsb' Fp.fracBits Fp.expoBits).toNat
  let frac := (x.extractLsb' 0 Fp.fracBits).toNat
  if expo = Fp.expoOnes then if frac = 0 then .inf neg else .nan
  else if expo = 0 then .fin neg frac Fp.eMin
  else .fin neg (Fp.leading + frac) ((expo : Int) - Fp.expoShift)

/-- A pattern from its three fields. -/
def packBits (neg : Bool) (expo frac : Nat) : F64 :=
  BitVec.ofNat 64 (neg.toNat * 2 ^ Fp.signBit + expo * 2 ^ Fp.fracBits + frac)

/-- The pattern of a value in canonical form; a NaN has no one pattern. -/
def Fp.toBits? : Fp → Option F64
  | .nan => none
  | .inf neg => some (packBits neg Fp.expoOnes 0)
  | .fin neg m e =>
    if m < Fp.leading then some (packBits neg 0 m)
    else some (packBits neg (e + Fp.expoShift).toNat (m - Fp.leading))

/-- A NaN pattern: exponent all ones, fraction not zero (93_implementation_defined.md U4). -/
def nanBits (neg : Bool) (frac : BitVec Config.floatFormat.fracBits) : F64 :=
  packBits neg Fp.expoOnes (if frac = 0 then 1 else frac.toNat)

/-- A finite value lies below infinity: `is_zero` and `finite` of 00_scope.md R14. -/
def Fp.finite : Fp → Bool
  | .fin _ _ _ => true
  | _ => false

/-- `is_zero`: +0.0 and -0.0 and nothing else (00_scope.md R14). -/
def Fp.isZero : Fp → Bool
  | .fin _ m _ => m == 0
  | _ => false

/-- The exact negation. -/
def Fp.neg : Fp → Fp
  | .nan => .nan
  | .inf n => .inf (!n)
  | .fin n m e => .fin (!n) m e

/-- The greatest `k` with `2^k ≤ num / den`, for positive `num` and `den`. -/
def ratLog2 (num den : Nat) : Int :=
  let k : Int := (num.log2 : Int) - den.log2
  if scaleUp den k ≤ scaleUp num (-k) then k else k - 1

/-- The integer that `num / den` is rounded to. -/
def roundQuotient (r : Rounding) (num den : Nat) : Nat :=
  let q := num / den
  let twice := 2 * (num % den)
  match r with
  | .towardZero => q
  | .nearestEven => if den < twice ∨ (twice = den ∧ q % 2 = 1) then q + 1 else q

/-- What a magnitude above every finite one becomes. -/
def overflowed (r : Rounding) (neg : Bool) : Fp :=
  match r with
  | .nearestEven => .inf neg
  | .towardZero => .fin neg (2 * Fp.leading - 1) Fp.eMax

/-- The floating-point value of the positive rational `num / den`, or of a zero, with the sign `neg`, rounded once (00_scope.md R14). -/
def roundRat (r : Rounding) (neg : Bool) (num den : Nat) : Fp :=
  if num = 0 then Fp.zero neg
  else
    let e := max (ratLog2 num den - Fp.fracBits) Fp.eMin
    let m := roundQuotient r (scaleUp num (-e)) (scaleUp den e)
    let (m, e) := if m = 2 * Fp.leading then (Fp.leading, e + 1) else (m, e)
    if Fp.eMax < e then overflowed r neg else .fin neg m e

/-- The floating-point value of `m * 2^e` with the sign `neg`, rounded once. -/
def roundDyadic (neg : Bool) (m : Nat) (e : Int) : Fp :=
  roundRat Config.numerics.rounding neg (scaleUp m e) (scaleUp 1 (-e))

/-- The signed integer `m` or `-m`. -/
def signed (neg : Bool) (m : Nat) : Int := if neg then -(m : Int) else m

/-- The exact product, not rounded: IEEE 754 for the infinities, the sign the exclusive or. -/
def Fp.mulExact : Fp → Fp → Fp
  | .nan, _ | _, .nan => .nan
  | .inf a, .inf b => .inf (a ^^ b)
  | .inf a, .fin b m _ | .fin b m _, .inf a => if m = 0 then .nan else .inf (a ^^ b)
  | .fin a m e, .fin b n f => .fin (a ^^ b) (m * n) (e + f)

/-- One rounding of an exact value. -/
def Fp.round : Fp → Fp
  | .fin neg m e => roundDyadic neg m e
  | x => x

/-- `fmul` (00_scope.md R14). -/
def Fp.mul (x y : Fp) : Fp := (x.mulExact y).round

/-- `fadd` (00_scope.md R14): infinities of opposite sign give a NaN; an exact zero is negative only when both operands are. -/
def Fp.add : Fp → Fp → Fp
  | .nan, _ | _, .nan => .nan
  | .inf a, .inf b => if a = b then .inf a else .nan
  | .inf a, .fin _ _ _ | .fin _ _ _, .inf a => .inf a
  | .fin a m e, .fin b n f =>
    let g := min e f
    let sum := signed a (scaleUp m (e - g)) + signed b (scaleUp n (f - g))
    if sum = 0 then Fp.zero (a && b) else roundDyadic (decide (sum < 0)) sum.natAbs g

/-- `fsub` (00_scope.md R14). -/
def Fp.sub (x y : Fp) : Fp := x.add y.neg

/-- `fdiv` (00_scope.md R14): the quotient of the two finite values as one rational, rounded once. -/
def Fp.div : Fp → Fp → Fp
  | .nan, _ | _, .nan => .nan
  | .inf _, .inf _ => .nan
  | .inf a, .fin b _ _ => .inf (a ^^ b)
  | .fin a _ _, .inf b => Fp.zero (a ^^ b)
  | .fin a m e, .fin b n f =>
    if n = 0 then if m = 0 then .nan else .inf (a ^^ b)
    else roundRat Config.numerics.rounding (a ^^ b) (scaleUp m (e - f)) (scaleUp n (f - e))

/-- `fadd(fmul(x, y), z)`, or the fused form when Config says so (41_physical.md R142, R143). -/
def Fp.mulAdd (x y z : Fp) : Fp :=
  if Config.numerics.fused then (x.mulExact y).add z else (x.mul y).add z

/-- `i2f_s` and `i2f_u`: the nearest floating-point value of an integer; 0 is +0.0 (00_scope.md R14). -/
def Fp.ofInt (i : Int) : Fp := roundDyadic (decide (i < 0)) i.natAbs 0

/-- `pow2(k)`, by its bit pattern (42_fixedpoint.md R161). -/
def Fp.pow2 (k : Nat) : Fp := Fp.ofBits (BitVec.ofNat 64 ((Fp.bias + k) * 2 ^ Fp.fracBits))

/-- `trunc(x)` for a finite value: toward zero (00_scope.md R11). -/
def truncFin (neg : Bool) (m : Nat) (e : Int) : Int := signed neg (scaleUp m e / scaleUp 1 (-e))

/-- The truncated integer through a signed integer of `cvtIntWidth` bits, read as 64 unsigned bits (00_scope.md R15, 42_fixedpoint.md R165). -/
def wrapInt (t : Int) : U64 := (BitVec.ofInt Config.cvtIntWidth t).signExtend 64

/-- Whether an integer is in the signed range of `cvtIntWidth` bits. -/
def fitsCvtInt (t : Int) : Bool :=
  decide (-(2 ^ (Config.cvtIntWidth - 1) : Int) ≤ t) && decide (t < 2 ^ (Config.cvtIntWidth - 1))

/-- `f2raw` where the spec fixes it: `trunc(x) mod 2^64` of a finite value, nothing for a NaN or an infinity (00_scope.md R15). -/
def Fp.toRaw? : Fp → Option U64
  | .fin neg m e =>
    let t := truncFin neg m e
    match Config.cvtWrap with
    | .wraps => some (wrapInt t)
    | .drawn => if fitsCvtInt t then some (wrapInt t) else none
  | _ => none

end Sys2Proof.Machine
end

