-- ==== Sys2Proof/Machine/State.lean ====
section
/-! DEFINITION. The whole state of a run: the host's frame, the host's actions still to come, the values at the block's input, and the responses given. The block itself holds no state (10_state.md R20 to R25). -/
namespace Sys2Proof.Machine

/-- Why the machine stops. One reason, which no step reaches (Obligations.StepAlwaysAnswersNext states it). -/
inductive Fault where
  /-- Raised by `Memory.readByte` and `Memory.writeByte` for an address that is not 0..7: no such location exists (20_memory.md R40). Safe: the machine stops where the hardware has nothing to access. -/
  | noSuchAddress (address : Int)
  deriving DecidableEq, Repr

/-- Why a command has no meaning. As the model is configured every command has one, so nothing raises these. -/
inductive Refusal where
  /-- Raised by an arm of `exec` whose command has no meaning yet; safe. -/
  | notModelled (mnemonic : String)
  /-- Raised by a command with a valid length whose span leaves the frame when `Config.spanOverflow` is `.refused`, which it is not (93_implementation_defined.md U1); safe. -/
  | spanOutsideFrame
  deriving DecidableEq, Repr

/-- The frame as cells at rising addresses; `Memory.wf` says which lists are in canonical form. -/
abbrev Memory := List Host.Cell

/-- What the block answers to a command (10_state.md R30): an absent result is no value. -/
structure Response where
  status : Status
  result : Option U64
  deriving DecidableEq, Repr

/-- What the host does, one action at a time (20_memory.md R54, 70_reset_and_hazards.md R216). -/
inductive HostAction where
  /-- Issue a command: the next element of the program (00_scope.md R17). -/
  | issue (c : Command)
  /-- Give the frame these eight contents, written as `FRAME64`: the host's own writes between commands, or another frame of its (10_state.md R26, R28). -/
  | putFrame (frame64 : U64)
  /-- Reset the idle block (10_state.md R33, 70_reset_and_hazards.md R210). -/
  | resetBlock
  /-- Issue a command and reset the block before it answers (10_state.md R34, 93_implementation_defined.md U11; log entry 14). -/
  | resetDuring (c : Command)
  deriving DecidableEq, Repr

/-- The state of a run. -/
structure State where
  /-- `FRAME[0..7]` (10_state.md R26). -/
  frame : Memory
  /-- The host's actions still to come, the next one first (00_scope.md R16, R17). -/
  host : List HostAction
  /-- `CMD`, `VALUE`, `FACTOR` and `OFFSET` at the block's input (10_state.md R29). -/
  port : Command
  /-- The responses given so far, the oldest first (10_state.md R30, 70_reset_and_hazards.md R212). -/
  responses : List Response
  /-- The model's own: which free values the next command takes; advanced once a response. -/
  draws : Nat
  deriving DecidableEq, Repr

/-- Right after reset: the block is idle, no command in progress, no response pending (10_state.md R33). The frame's contents, the port and the counter are values the spec does not give: DESIGN CHOICE, log entries 3, 4 and 5. -/
def State.reset : State where
  frame := []
  host := []
  port := ⟨0, 0, 0, 0⟩
  responses := []
  draws := 0

end Sys2Proof.Machine
end

