-- ==== Sys2Proof/Machine/Memory.lean ====
section
/-! DEFINITION. The frame as a canonical list of cells: byte access, and the frame as one number (20_memory.md R40, 00_scope.md R13). -/
namespace Sys2Proof.Machine

/-- What an unlisted frame byte reads as: the frame before the host has put anything there (10_state.md R33; DESIGN CHOICE, log entry 3). -/
def Memory.unlisted : U8 := 0

/-- Rising addresses from `lo` on, all of them frame addresses, no entry that says what an unlisted address says. -/
def Memory.wfFrom (lo : Nat) : Memory → Bool
  | [] => true
  | (a, v) :: rest =>
    decide (lo ≤ a) && decide (a < Config.frameBytes) && (v != Memory.unlisted) &&
      Memory.wfFrom (a + 1) rest

/-- The canonical form: equal frames are equal lists. -/
def Memory.wf (m : Memory) : Bool := Memory.wfFrom 0 m

/-- The byte at an address. -/
def Memory.byteAt : Memory → Nat → U8
  | [], _ => Memory.unlisted
  | (b, v) :: rest, a => if b = a then v else Memory.byteAt rest a

/-- The memory with the byte at an address replaced, in canonical form. -/
def Memory.put : Memory → Nat → U8 → Memory
  | [], a, v => if v = Memory.unlisted then [] else [(a, v)]
  | (b, u) :: rest, a, v =>
    if b < a then (b, u) :: Memory.put rest a v
    else
      let tail := if b = a then rest else (b, u) :: rest
      if v = Memory.unlisted then tail else (a, v) :: tail

/-- The frame is addresses 0 to 7; no other address exists (20_memory.md R40). -/
def Memory.exists? (b : Int) : Bool := decide (0 ≤ b) && decide (b < Config.frameBytes)

/-- `FRAME[b]`, `MemRead(b, 1)` (00_scope.md R12). -/
def Memory.readByte (m : Memory) (b : Int) : Except Fault U8 :=
  if Memory.exists? b then .ok (m.byteAt b.toNat) else .error (.noSuchAddress b)

/-- `FRAME[b] <- v`, `MemWrite(b, 1, v)` (00_scope.md R12). -/
def Memory.writeByte (m : Memory) (b : Int) (v : U8) : Except Fault Memory :=
  if Memory.exists? b then .ok (m.put b.toNat v) else .error (.noSuchAddress b)

/-- `FRAME64`: `FRAME[7] ‖ FRAME[6] ‖ ... ‖ FRAME[0]` (00_scope.md R13). -/
def Memory.frame64 (m : Memory) : U64 :=
  m.byteAt 7 ++ m.byteAt 6 ++ m.byteAt 5 ++ m.byteAt 4 ++ m.byteAt 3 ++ m.byteAt 2 ++ m.byteAt 1 ++ m.byteAt 0

/-- Byte `b` of a number read as `FRAME64` (00_scope.md R13). -/
def byteOf (v : U64) (b : Nat) : U8 := v.extractLsb' (8 * b) 8

/-- The frame whose `FRAME64` is `v`. -/
def Memory.ofFrame64 (v : U64) : Memory :=
  (List.range Config.frameBytes).foldl (fun m b => m.put b (byteOf v b)) []

end Sys2Proof.Machine
end

