-- ==== Sys2Proof/Machine/Operands.lean ====
section
/-! DEFINITION. The operand forms: the field of the frame that a descriptor names, as a span and as the chunks of a walk, and the data operands at the port. -/
namespace Sys2Proof.Machine

/-- The lowest flat index of the span, when the walk crosses to the previous byte (20_memory.md R44, R45). -/
def spanLo (bigEndian : Bool) (startBit length : Nat) : Int :=
  if bigEndian then (startBit : Int) - length + 1 else startBit

/-- The highest flat index of the span (20_memory.md R44, R45). -/
def spanHi (bigEndian : Bool) (startBit length : Nat) : Int :=
  if bigEndian then startBit else (startBit : Int) + length - 1

/-- Every index of the span is in 0..63 (20_memory.md R46), for either direction of the big-endian walk. -/
def spanFits (walk : BeWalk) (bigEndian : Bool) (startBit length : Nat) : Bool :=
  if bigEndian && walk == .toNextByte then
    decide (startBit < Config.frameBits) &&
      decide (8 * (startBit / 8) + (7 - startBit % 8) + length ≤ Config.frameBits)
  else
    decide (0 ≤ spanLo bigEndian startBit length) &&
      decide (spanHi bigEndian startBit length < Config.frameBits)

/-- `SpanOK`: a valid length and every index of the span in the frame (20_memory.md R46). -/
def spanOK (bigEndian : Bool) (startBit length : Nat) : Bool :=
  decide (Config.lenMin ≤ length) && decide (length ≤ Config.lenMax) &&
    spanFits Config.beWalk bigEndian startBit length

/-- The bits of one frame byte handled in one step of a walk: the byte, the lowest bit in it, the width, and the position in the raw value of that lowest bit (40_bitfield.md R103). -/
structure Chunk where
  b  : Int
  cl : Nat
  w  : Nat
  rl : Nat
  deriving DecidableEq, Repr

/-- The chunks of the little-endian walks (40_bitfield.md R104, R111), at most `fuel` of them. -/
def chunksLE : (fuel : Nat) → (pos : Int) → (rl rem : Nat) → List Chunk
  | 0, _, _, _ => []
  | fuel + 1, pos, rl, rem =>
    if rem = 0 then []
    else
      let cl := (pos % 8).toNat
      let w := min (8 - cl) rem
      ⟨pos / 8, cl, w, rl⟩ :: chunksLE fuel (pos + w) (rl + w) (rem - w)

/-- The flat index the big-endian walk goes to after a chunk of width `w` at `pos` (40_bitfield.md R105, 90_conflicts.md C1). -/
def nextBE (pos : Int) (w : Nat) : Int :=
  match Config.beWalk with
  | .toPreviousByte => pos - w
  | .toNextByte => 8 * (pos / 8 + 1) + 7

/-- The chunks of the big-endian walks (40_bitfield.md R105, R112), at most `fuel` of them. -/
def chunksBE : (fuel : Nat) → (pos : Int) → (rem : Nat) → List Chunk
  | 0, _, _ => []
  | fuel + 1, pos, rem =>
    if rem = 0 then []
    else
      let i := (pos % 8).toNat
      let w := min (i + 1) rem
      ⟨pos / 8, i + 1 - w, w, rem - w⟩ :: chunksBE fuel (nextBE pos w) (rem - w)

/-- The chunks of a field in the order its walk visits them. Every chunk takes at least one bit, so `length` bounds their number (20_memory.md R41, 40_bitfield.md R121). -/
def chunks (bigEndian : Bool) (startBit length : Nat) : List Chunk :=
  if bigEndian then chunksBE length startBit length else chunksLE length startBit 0 length

/-- `VALUE` as the raw value of STORE (10_state.md R29). -/
def State.valueRaw (s : State) : U64 := s.port.value
/-- `VALUE` as the physical value of the encode commands (10_state.md R29). -/
def State.valueFp (s : State) : Fp := Fp.ofBits s.port.value
/-- `FACTOR` (10_state.md R29). -/
def State.factorFp (s : State) : Fp := Fp.ofBits s.port.factor
/-- `OFFSET` (10_state.md R29). -/
def State.offsetFp (s : State) : Fp := Fp.ofBits s.port.offset

/-- `raw2f`: the raw value read as signed or as unsigned, then converted (41_physical.md R141, 42_fixedpoint.md R163). -/
def raw2f (raw : U64) (isSigned : Bool) : Fp :=
  Fp.ofInt (if isSigned then raw.toInt else (raw.toNat : Int))

end Sys2Proof.Machine
end

