-- ==== Sys2Proof/Machine/Flags.lean ====
section
/-! DEFINITION. The hardware has no flags (10_state.md R23). What a command reports is its status: this file holds the conditions it tests and the codes. -/
namespace Sys2Proof.Machine

/-- `LengthOK` (40_bitfield.md R101). -/
def lengthOK (length : Nat) : Bool := decide (Config.lenMin ≤ length) && decide (length ≤ Config.lenMax)

/-- The test for DIVISION_BY_ZERO: `FACTOR` is +0.0 or -0.0 (41_physical.md R144). -/
def State.factorIsZero (s : State) : Bool := s.factorFp.isZero

/-- The 2-bit code of a status (60_exceptions.md R181). -/
def statusCode : Status → BitVec 2
  | .ok => Config.statusOk
  | .invalidLength => Config.statusInvalidLength
  | .divisionByZero => Config.statusDivisionByZero
  | .illegalCommand => Config.statusIllegalCommand

end Sys2Proof.Machine
end

