-- ==== Sys2Proof/Machine/Ops.lean ====
section
/-! DEFINITION. The operations the six meanings share: the walks over the frame, ending a command with a response, taking an error, and the free values. -/
namespace Sys2Proof.Machine

/-- What the machine answers. -/
abbrev Answer := Host.Outcome State Fault Refusal

/-- Extraction: each chunk of the frame goes to its place in the accumulator (40_bitfield.md R104, R105). -/
def extractWalk (m : Memory) : List Chunk → U64 → Except Fault U64
  | [], acc => .ok acc
  | c :: rest, acc =>
    match m.readByte c.b with
    | .error f => .error f
    | .ok byte =>
      let chunk := (byte >>> c.cl) &&& mask 8 c.w
      extractWalk m rest (acc ||| (chunk.setWidth 64 <<< c.rl))

/-- One byte of a store: clear exactly the bits of the chunk, then or in the bits of the value (40_bitfield.md R111, R113). -/
def storeByte (v : U64) (c : Chunk) (byte : U8) : U8 :=
  let m := mask 8 c.w <<< c.cl
  let chunk := (v >>> c.rl).setWidth 8 &&& mask 8 c.w
  (byte &&& ~~~m) ||| (chunk <<< c.cl)

/-- A store: a read-modify-write of each byte the walk visits (40_bitfield.md R111, R112). -/
def storeWalk (v : U64) : List Chunk → Memory → Except Fault Memory
  | [], m => .ok m
  | c :: rest, m =>
    match m.readByte c.b with
    | .error f => .error f
    | .ok byte =>
      match m.writeByte c.b (storeByte v c byte) with
      | .error f => .error f
      | .ok m' => storeWalk v rest m'

/-- The raw value of a field: walk, mask, sign-extend (40_bitfield.md R108). -/
def extractField (m : Memory) (bigEndian isSigned : Bool) (startBit length : Nat) :
    Except Fault U64 :=
  match extractWalk m (chunks bigEndian startBit length) 0 with
  | .error f => .error f
  | .ok acc => .ok (signStep isSigned length (maskTo length acc))

/-- The frame with a field replaced: mask the value, walk (40_bitfield.md R115). -/
def storeField (m : Memory) (bigEndian : Bool) (startBit length : Nat) (v : U64) :
    Except Fault Memory :=
  storeWalk (maskTo length v) (chunks bigEndian startBit length) m

/-- `respond(status, result)`: the command ends with one response (00_scope.md R12, 10_state.md R30). -/
def State.respond (s : State) (status : Status) (result : Option U64) : State :=
  { s with responses := s.responses ++ [⟨status, result⟩], draws := s.draws + 1 }

/-- Taking an error: the response carries the status and no result, the frame is as it was, and nothing else happens (60_exceptions.md R186, R192). There is no return from an error and nothing to restore (R193). -/
def raise (status : Status) (s : State) : Answer := .next (s.respond status none)

/-- A free value for the command at the port. -/
def State.draw {α : Type} (s : State) (free : Nat → Command → U64 → α) : α :=
  free s.draws s.port s.frame.frame64

/-- The pattern of an F64 result; sign and fraction of a NaN are free values (93_implementation_defined.md U4). -/
def State.resultBits (s : State) (x : Fp) : F64 :=
  match x.toBits? with
  | some b => b
  | none => nanBits (s.draw Config.nanSign) (s.draw Config.nanFraction)

/-- `f2raw`; for a value that is not finite the result is a free value (00_scope.md R15). -/
def State.f2raw (s : State) (x : Fp) : U64 :=
  match x.toRaw? with
  | some raw => raw
  | none => s.draw Config.cvtNonfinite

/-- The answer to a command whose span leaves the frame: where `Config.spanOverflow` says the machine goes on, `goesOn`, in which every value U1 leaves open is a free value (93_implementation_defined.md U1, decision D14). -/
def spanOverflowed (goesOn : State) : Answer :=
  match Config.spanOverflow with
  | .drawn => .next goesOn
  | .refused => .refused .spanOutsideFrame

/-- A reading command: the length check, then the field's raw value, from which `result` makes `RESULT` (40_bitfield.md R101, R108). Where the span leaves the frame the status is OK and the result a free value (93_implementation_defined.md U1; log entry 6). -/
def readCommand (bigEndian isSigned : Bool) (startBit length : Nat) (result : U64 → U64)
    (s : State) : Answer :=
  if lengthOK length then
    if spanOK bigEndian startBit length then
      match extractField s.frame bigEndian isSigned startBit length with
      | .ok raw => .next (s.respond .ok (some (result raw)))
      | .error f => .fault f
    else spanOverflowed (s.respond .ok (some (s.draw Config.spanResult)))
  else raise .invalidLength s

/-- A writing command: the length check, then the store of a raw value (40_bitfield.md R101, R115). Where the span leaves the frame the status is OK and all eight bytes are free values (93_implementation_defined.md U1; log entry 7). -/
def writeCommand (bigEndian : Bool) (startBit length : Nat) (raw : U64) (s : State) : Answer :=
  if lengthOK length then
    if spanOK bigEndian startBit length then
      match storeField s.frame bigEndian startBit length raw with
      | .ok m => .next ({ s with frame := m }.respond .ok none)
      | .error f => .fault f
    else spanOverflowed ({ s with frame := Memory.ofFrame64 (s.draw Config.spanFrame) }.respond .ok none)
  else raise .invalidLength s

end Sys2Proof.Machine
end

