-- ==== Sys2Proof/Machine/BitField.lean ====
section
/-! DEFINITION. BitFieldCodec: EXTRACT and STORE (40_bitfield.md). -/
namespace Sys2Proof.Machine

/-- EXTRACT (40_bitfield.md R108). -/
def execExtract (bigEndian isSigned : Bool) (startBit length : Nat) (s : State) : Answer :=
  readCommand bigEndian isSigned startBit length (fun raw => raw) s

/-- STORE (40_bitfield.md R115); `isSigned` has no effect (R117). -/
def execStore (bigEndian _isSigned : Bool) (startBit length : Nat) (s : State) : Answer :=
  writeCommand bigEndian startBit length s.valueRaw s

end Sys2Proof.Machine
end

