-- ==== Sys2Proof/Machine/FixedPoint.lean ====
section
/-! DEFINITION. FixedPointCodec: DECODE_FIXED and ENCODE_FIXED (42_fixedpoint.md). -/
namespace Sys2Proof.Machine

/-- DECODE_FIXED (42_fixedpoint.md R162). -/
def execDecodeFixed (bigEndian isSigned : Bool) (startBit length fractionalBits : Nat)
    (s : State) : Answer :=
  readCommand bigEndian isSigned startBit length
    (fun raw => s.resultBits ((raw2f raw isSigned).div (Fp.pow2 fractionalBits))) s

/-- `s` of ENCODE_FIXED: `fmul(VALUE, pow2(fractionalBits))` (42_fixedpoint.md R166). -/
def State.scaledValue (s : State) (fractionalBits : Nat) : Fp :=
  s.valueFp.mul (Fp.pow2 fractionalBits)

/-- ENCODE_FIXED (42_fixedpoint.md R166); `isSigned` has no effect (R167). -/
def execEncodeFixed (bigEndian _isSigned : Bool) (startBit length fractionalBits : Nat)
    (s : State) : Answer :=
  writeCommand bigEndian startBit length (s.f2raw (s.scaledValue fractionalBits)) s

end Sys2Proof.Machine
end

