-- ==== Sys2Proof/Machine/Physical.lean ====
section
/-! DEFINITION. PhysicalValueCodec: DECODE_LINEAR and ENCODE_LINEAR (41_physical.md). -/
namespace Sys2Proof.Machine

/-- DECODE_LINEAR (41_physical.md R142): a zero `FACTOR` is no error here. -/
def execDecodeLinear (bigEndian isSigned : Bool) (startBit length : Nat) (s : State) : Answer :=
  readCommand bigEndian isSigned startBit length
    (fun raw => s.resultBits (Fp.mulAdd (raw2f raw isSigned) s.factorFp s.offsetFp)) s

/-- `t` of ENCODE_LINEAR: `fdiv(fsub(VALUE, OFFSET), FACTOR)` (41_physical.md R146). -/
def State.linearQuotient (s : State) : Fp := (s.valueFp.sub s.offsetFp).div s.factorFp

/-- ENCODE_LINEAR (41_physical.md R146): the zero test comes before the length check (60_exceptions.md R190); `isSigned` has no effect (R147). -/
def execEncodeLinear (bigEndian _isSigned : Bool) (startBit length : Nat) (s : State) : Answer :=
  if s.factorIsZero then raise .divisionByZero s
  else writeCommand bigEndian startBit length (s.f2raw s.linearQuotient) s

end Sys2Proof.Machine
end

