-- ==== Sys2Proof/Machine/Dispatch.lean ====
section
/-! DEFINITION. One arm for each command (30_encoding.md R74). -/
namespace Sys2Proof.Machine

def exec (i : Instr) (s : State) : Host.Outcome State Fault Refusal :=
  match i with
  | .extract be sg sb n => Sys2Proof.Machine.execExtract be sg sb n s
  | .store be sg sb n => Sys2Proof.Machine.execStore be sg sb n s
  | .decodeLinear be sg sb n => Sys2Proof.Machine.execDecodeLinear be sg sb n s
  | .encodeLinear be sg sb n => Sys2Proof.Machine.execEncodeLinear be sg sb n s
  | .decodeFixed be sg sb n fb => Sys2Proof.Machine.execDecodeFixed be sg sb n fb s
  | .encodeFixed be sg sb n fb => Sys2Proof.Machine.execEncodeFixed be sg sb n fb s

end Sys2Proof.Machine
end

