-- ==== Sys2Proof/Machine/Issue.lean ====
section
/-! DEFINITION. What one step does with the host's next action (00_scope.md R16). -/
namespace Sys2Proof.Machine

/-- The host has taken its next action. -/
def State.advance (s : State) (rest : List HostAction) : State := { s with host := rest }

/-- The next command is at the port (10_state.md R29). -/
def State.accept (s : State) (c : Command) (rest : List HostAction) : State :=
  { s with host := rest, port := c }

/-- One whole command: decode before anything else; an illegal word is answered ILLEGAL_COMMAND, the frame unread and unchanged (60_exceptions.md R189, 30_encoding.md R76). -/
def runCommand (s : State) : Answer :=
  match decode s.port.cmd with
  | .ok i => exec i s
  | .error _ => raise .illegalCommand s

/-- The host's own access to the frame between commands (10_state.md R26, R28). -/
def hostPutFrame (frame64 : U64) (s : State) : Answer :=
  .next { s with frame := Memory.ofFrame64 frame64 }

/-- A reset of the idle block: it has no state to initialise, and the frame is the host's (10_state.md R33, 70_reset_and_hazards.md R210). -/
def hostReset (s : State) : Answer := .next s

/-- Whether the command stores to the frame: a writing one that raises no error (10_state.md R27, 60_exceptions.md R186). -/
def State.stores (s : State) (i : Instr) : Bool :=
  i.writes && lengthOK i.length && !(i.op == 3 && s.factorIsZero)

/-- A reset during the command at the port (10_state.md R34, 93_implementation_defined.md U11; log entry 14): the command is never answered; if it stores, the bits of its span are free values and the rest of the frame is unchanged, otherwise nothing changes. -/
def resetDuringCommand (s : State) : Answer :=
  match decode s.port.cmd with
  | .error _ => .next s
  | .ok i =>
    if s.stores i then
      if spanOK i.bigEndian i.startBit i.length then
        match storeField s.frame i.bigEndian i.startBit i.length (s.draw Config.resetField) with
        | .ok m => .next { s with frame := m, draws := s.draws + 1 }
        | .error f => .fault f
      else
        spanOverflowed { s with
          frame := Memory.ofFrame64 (s.draw Config.spanFrame)
          draws := s.draws + 1 }
    else .next s

/-- The host's next action; with none left the run has ended and the block stays idle (00_scope.md R17; log entry 2). -/
def runHostAction (s : State) : Answer :=
  match s.host with
  | [] => .next s
  | .issue c :: rest => runCommand (s.accept c rest)
  | .putFrame v :: rest => hostPutFrame v (s.advance rest)
  | .resetBlock :: rest => hostReset (s.advance rest)
  | .resetDuring c :: rest => resetDuringCommand (s.accept c rest)

/-- The state in which the host is about to issue `c`. -/
def State.issueNext (s : State) (c : Command) : State := { s with host := .issue c :: s.host }

end Sys2Proof.Machine
end

