-- ==== Sys2Proof/Machine/Step.lean ====
section
/-! DEFINITION. One step of the machine: the host's next action, a command run to its response (00_scope.md R16). -/
namespace Sys2Proof.Machine

/-- `step : Frame x Command -> Frame x Response` of 00_scope.md R16, with the host's list of commands in the state. -/
def step (s : State) : Host.Outcome State Fault Refusal := runHostAction s

/-- The block does not fetch (00_scope.md R17): the next instruction is the next command the host issues, here the word `w` with the data operands now at the port (log entry 1). -/
def State.withFetchWord (s : State) (nbits w : Nat) : State :=
  s.issueNext { s.port with cmd := BitVec.ofNat Config.cmdWidth (w % 2 ^ nbits) }

end Sys2Proof.Machine
end

