-- ==== Sys2Proof/Safety.lean ====
section
/-! DEFINITION. What a good state and a good run are, in the terms the statements use. -/
namespace Sys2Proof.Machine

/-- The state is legal: the frame is in canonical form, eight bytes and nothing else. -/
def State.inv (s : State) : Bool := s.frame.wf

/-- The span premise of a command (20_memory.md R46). -/
def spanPremise (i : Instr) : Bool := spanOK i.bigEndian i.startBit i.length

/-- The host keeps its duties: a command it issues that has a valid length fits in the frame (70_reset_and_hazards.md R214), and it does not reset the block during a command (10_state.md R34). -/
def HostAction.dutiful : HostAction → Bool
  | .issue c =>
    match decode c.cmd with
    | .ok i => !lengthOK i.length || spanPremise i
    | .error _ => true
  | .putFrame _ | .resetBlock => true
  | .resetDuring _ => false

/-- Every action the host has left is dutiful. -/
def State.dutiful (s : State) : Bool := s.host.all HostAction.dutiful

/-- No command of the run has failed: the host's own sticky bit (60_exceptions.md R193). -/
def State.allOk (s : State) : Bool := s.responses.all (fun r => r.status == .ok)

/-! The ideal values the statements compare the machine's with. -/

/-- The real number a finite value stands for; 0 for the others (00_scope.md R14). -/
def Fp.toRat : Fp → ℚ
  | .fin neg m e => (if neg then -1 else 1) * (m : ℚ) * 2 ^ e
  | _ => 0

/-- The form every binary64 value has: a subnormal or zero at the least exponent, or 53 significant bits. -/
def Fp.canonical : Fp → Bool
  | .fin _ m e =>
    (decide (m < 2 ^ 52) && decide (e = -1074)) ||
      (decide (2 ^ 52 ≤ m) && decide (m < 2 ^ 53) && decide (-1074 ≤ e) && decide (e ≤ 971))
  | _ => true

/-- `z` is `v` correctly rounded, to nearest, ties to even (00_scope.md R14): `z` is the value of a binary64 pattern, no finite binary64 number is nearer to `v`, a number as near means the significand of `z` is even, and `z` is an infinity exactly from half a unit above the largest finite number on. -/
def Fp.isNearest (z : Fp) (v : ℚ) : Prop :=
  (∃ b : F64, Fp.ofBits b = z) ∧
  match z with
  | .nan => False
  | .inf neg => 2 ^ 1024 - 2 ^ 970 ≤ |v| ∧ neg = decide (v < 0)
  | .fin neg m e =>
    |v| < 2 ^ 1024 - 2 ^ 970 ∧
      ∀ w : F64, (Fp.ofBits w).finite = true →
        |(Fp.fin neg m e).toRat - v| ≤ |(Fp.ofBits w).toRat - v| ∧
          (|(Fp.ofBits w).toRat - v| = |(Fp.fin neg m e).toRat - v| →
            (Fp.ofBits w).toRat ≠ (Fp.fin neg m e).toRat → m % 2 = 0)

/-- The sign of a value that is no NaN, zeros and infinities included. -/
def Fp.isNeg : Fp → Bool
  | .nan => false
  | .inf neg | .fin neg _ _ => neg

/-- The unsigned integer in a field: `(FRAME64 >> lo) & mask(n)` (40_bitfield.md R109). -/
def fieldValue (frame64 : U64) (lo : Int) (n : Nat) : Nat := frame64.toNat / 2 ^ lo.toNat % 2 ^ n

/-- The number a field of `n` bits with pattern `u` stands for (40_bitfield.md R102). -/
def readAs (isSigned : Bool) (n u : Nat) : Int :=
  if isSigned ∧ 2 ^ (n - 1) ≤ u then (u : Int) - 2 ^ n else u

/-- The number in the field a descriptor names. -/
def State.fieldNumber (s : State) (bigEndian isSigned : Bool) (startBit length : Nat) : Int :=
  readAs isSigned length (fieldValue s.frame.frame64 (spanLo bigEndian startBit length) length)

/-- `FRAME64` with a field replaced: the closed form of a store (40_bitfield.md R114). -/
def replaceField (frame64 : U64) (lo : Int) (n : Nat) (v : U64) : U64 :=
  (frame64 &&& ~~~(mask 64 n <<< lo.toNat)) ||| ((v &&& mask 64 n) <<< lo.toNat)

/-- `FACTOR` is +0.0 or -0.0, by its two patterns (41_physical.md R144). -/
def zeroFactor (c : Command) : Prop := c.factor = 0 ∨ c.factor = 0x8000000000000000

/-- The length is one no command accepts (40_bitfield.md R101). -/
def badLength (length : Nat) : Prop := length < 1 ∨ 64 < length

/-- The integer `k` is in the range of a field of `n` bits (40_bitfield.md R102). -/
def inFieldRange (isSigned : Bool) (n : Nat) (k : Int) : Prop :=
  if isSigned then -2 ^ (n - 1) ≤ k ∧ k < 2 ^ (n - 1) else 0 ≤ k ∧ k < 2 ^ n

/-- The answer is a next state with one more response; frame, status and result as given, everything the host owns besides as before, the draw counter one further. -/
def AnswersWith (a : Answer) (s : State) (frame : Memory) (status : Status) (result : Option U64) : Prop :=
  a = .next ⟨frame, s.host, s.port, s.responses ++ [⟨status, result⟩], s.draws + 1⟩

end Sys2Proof.Machine
end

