-- ==== Sys2Proof/Certificates/Slice0/Obligations.lean ====
section
/-! DEFINITION. The statements for the provers, in the order of OBLIGATIONS.json. -/

section
open Sys2Proof Sys2Proof.Machine

/-! ### Encoding -/

/-- 30_encoding.md R75: encoding a command and decoding the word gives the command back, every field at every value it admits. -/
def Obligations.DecodeOfEncode : Prop :=
  ∀ i : Instr, i.wellFormed = true → decode (encode i) = .ok i

/-- 30_encoding.md R75: decoding a legal word and encoding the result gives the word back; what the decoder answers is well formed. -/
def Obligations.EncodeOfDecode : Prop :=
  ∀ (w : CmdWord) (i : Instr), decode w = .ok i → i.wellFormed = true ∧ encode i = w

/-- 30_encoding.md R76: the words without a command are exactly those with a reserved bit set, `op` 6 or 7, or `fractionalBits` not 0 with `op` 0 to 3. -/
def Obligations.IllegalWordsAreThese : Prop :=
  ∀ w : CmdWord, (∃ e, decode w = .error e) ↔
    w.extractLsb' 27 5 ≠ 0 ∨ w.extractLsb' 15 1 ≠ 0 ∨ w.extractLsb' 6 2 ≠ 0 ∨
      6 ≤ (w.extractLsb' 24 3).toNat ∨
      ((w.extractLsb' 24 3).toNat ≤ 3 ∧ w.extractLsb' 0 6 ≠ 0)

/-- 30_encoding.md R74: the mask and match of a row select exactly the words that decode to its command, and a word no row selects is illegal. -/
def Obligations.MaskAndMatchRows : Prop :=
  ∀ w : CmdWord,
    (∀ row ∈ opcodeRows, row.selects w = true ↔
      ∃ i, decode w = .ok i ∧ i.op = row.op ∧ i.mnemonic = row.mnemonic) ∧
    ((∀ row ∈ opcodeRows, row.selects w = false) ↔ ∃ e, decode w = .error e)

/-- 30_encoding.md R73: every field of a decoded command is the unsigned integer its bits spell. -/
def Obligations.FieldsAsTheyStand : Prop :=
  ∀ (w : CmdWord) (i : Instr), decode w = .ok i →
    i.op = (w.extractLsb' 24 3).toNat ∧ i.bigEndian = w.getLsbD 23 ∧ i.isSigned = w.getLsbD 22 ∧
      i.startBit = (w.extractLsb' 16 6).toNat ∧ i.length = (w.extractLsb' 8 7).toNat ∧
      i.fractionalBits = (w.extractLsb' 0 6).toNat

/-- 95_test_vectors.md: one word of each command, and an illegal one, decode as the vectors say. -/
def Obligations.KnownWordsDecode : Prop :=
  decode 0x00D70C00 = .ok (.extract true true 23 12) ∧
  decode 0x01001000 = .ok (.store false false 0 16) ∧
  decode 0x02CF1000 = .ok (.decodeLinear true true 15 16) ∧
  decode 0x03970C00 = .ok (.encodeLinear true false 23 12) ∧
  decode 0x04CF0403 = .ok (.decodeFixed true true 15 4 3) ∧
  decode 0x05481008 = .ok (.encodeFixed false true 8 16 8) ∧
  decode 0x00000000 = .ok (.extract false false 0 0) ∧
  decode 0x06000800 = .error .reservedOp

/-! ### Steps, the host, and the state -/

/-- 00_scope.md R16: when the host issues a word that decodes to `i`, the step is `exec i` with the command at the port and the host's action taken. -/
def Obligations.StepRunsDecodedCommand : Prop :=
  ∀ (s : State) (c : Command) (rest : List HostAction) (i : Instr),
    s.host = .issue c :: rest → decode c.cmd = .ok i →
      step s = exec i { s with host := rest, port := c }

/-- How a word comes to run (log entry 1): the word of a well-formed command, placed as the host's next command, is run by the very next step, with the data operands at the port. -/
def Obligations.FetchWordRunsNext : Prop :=
  ∀ (s : State) (i : Instr), i.wellFormed = true →
    step (s.withFetchWord 32 (encode i).toNat) =
      exec i { s with port := { s.port with cmd := encode i } }

/-- 00_scope.md R16, 20_memory.md R41: the byte accessors fault at every address outside 0..7 (log entry 12), and yet every command and every step, in every state, answers a next state. The walks pass an accessor's fault on, so the two together say that no walk asks for such an address. That the machine goes on with an empty list (log entry 2), past a span that leaves the frame (log entries 6 and 7) and past an illegal word (log entry 11) is the model's. -/
def Obligations.StepAlwaysAnswersNext : Prop :=
  (∀ (m : Memory) (b : Int) (v : U8), ¬ (0 ≤ b ∧ b < 8) →
    m.readByte b = .error (.noSuchAddress b) ∧ m.writeByte b v = .error (.noSuchAddress b)) ∧
  (∀ (i : Instr) (s : State), ∃ t, exec i s = .next t) ∧
  ∀ s : State, ∃ t, step s = .next t

/-- The frame stays the eight bytes of 10_state.md R26 in canonical form, whatever step is taken. -/
def Obligations.StepKeepsFrameCanonical : Prop :=
  ∀ s t : State, s.inv = true → step s = .next t → t.inv = true

/-- 10_state.md R33: after reset no response is pending and the frame is in canonical form. That the host's list is empty then is the model's (log entry 1), and so is the idle step: in every state whose list is empty a step changes nothing (log entry 2), after reset among them. The contents of the frame, the port and the counter at reset are the model's choices (log entries 3, 4 and 5) and are not stated. -/
def Obligations.ResetIsIdle : Prop :=
  State.reset.inv = true ∧ State.reset.host = [] ∧ State.reset.responses = [] ∧
    step State.reset = .next State.reset ∧ ∀ s : State, s.host = [] → step s = .next s

/-- 70_reset_and_hazards.md R210: a reset of the idle block changes nothing; the host's next action finds everything as it was. The reset as a host action is the model's (log entry 13). -/
def Obligations.BlockResetChangesNothing : Prop :=
  ∀ (s : State) (rest : List HostAction), s.host = .resetBlock :: rest →
    step s = .next { s with host := rest }

/-- 10_state.md R34: after a reset during a command the frame bits outside the span of a store in progress are unchanged, all of the frame is where no store is in progress (a reading command, an error), and the command is not answered. That such a reset is a host action, and that it leaves no response, is the model's (log entry 14). -/
def Obligations.ResetDuringCommandSparesTheRest : Prop :=
  ∀ (s : State) (c : Command) (rest : List HostAction), s.inv = true →
    s.host = .resetDuring c :: rest →
      ∃ t, step s = .next t ∧ t.responses = s.responses ∧ t.host = rest ∧ t.inv = true ∧
        ((∃ e, decode c.cmd = .error e) → t.frame = s.frame) ∧
        ∀ i, decode c.cmd = .ok i →
          (i.writes = false ∨ badLength i.length ∨ (i.op = 3 ∧ zeroFactor c) → t.frame = s.frame) ∧
          (spanPremise i = true → ∀ p : Nat, p < 64 →
            (p : Int) < spanLo i.bigEndian i.startBit i.length ∨
              spanHi i.bigEndian i.startBit i.length < (p : Int) →
            t.frame.frame64.getLsbD p = s.frame.frame64.getLsbD p)

/-- 10_state.md R26, 70_reset_and_hazards.md R216: between commands the host gives the frame any eight bytes it likes, and nothing else changes. -/
def Obligations.HostReplacesFrame : Prop :=
  ∀ (s : State) (v : U64) (rest : List HostAction), s.host = .putFrame v :: rest →
    ∃ m : Memory, m.wf = true ∧ m.frame64 = v ∧
      step s = .next ⟨m, rest, s.port, s.responses, s.draws⟩

/-- 00_scope.md R17, 70_reset_and_hazards.md R212: a run of as many steps as the host has actions ends with none left, and gives one new response for each command issued, after those given before. Where the first action issues a command, the run's new responses are the one response its step gives and then those of the run of the rest from there, so the responses stand in the order of the commands. A command that a reset cuts off is not issued in this sense and has no response (log entry 14). -/
def Obligations.RunEndsWithEveryCommandAnswered : Prop :=
  let issues := fun a : HostAction => match a with | .issue _ => true | _ => false
  (∀ s : State, ∃ (t : State) (new : List Response),
    Sys2Proof.core.run s.host.length s = .next t ∧ t.host = [] ∧
      t.responses = s.responses ++ new ∧ new.length = s.host.countP issues) ∧
  ∀ (s : State) (c : Command) (rest : List HostAction), s.host = .issue c :: rest →
    ∃ (u t : State) (r : Response) (later : List Response),
      step s = .next u ∧ u.host = rest ∧ u.responses = s.responses ++ [r] ∧
        Sys2Proof.core.run rest.length u = .next t ∧ t.responses = u.responses ++ later ∧
        later.length = rest.countP issues ∧
        Sys2Proof.core.run s.host.length s = .next t ∧ t.responses = s.responses ++ r :: later

/-- 10_state.md R20: the frame a command leaves and its response depend on the command, its operands and the frame, not on earlier commands, earlier responses or what is left at the port; the draw counter (log entry 5) is held equal, for the free values. -/
def Obligations.NoStateSurvivesACommand : Prop :=
  ∀ (s s' t t' : State) (c : Command) (rest rest' : List HostAction),
    s.host = .issue c :: rest → s'.host = .issue c :: rest' → s.frame = s'.frame →
    s.draws = s'.draws → step s = .next t → step s' = .next t' →
      t.frame = t'.frame ∧
        ∃ r, t.responses = s.responses ++ [r] ∧ t'.responses = s'.responses ++ [r]

/-- 10_state.md R20 without its exception: EXTRACT, STORE and DECODE_FIXED of a field that fits draw nothing, so their effect does not depend on the draw counter either. -/
def Obligations.FittingFieldsDrawNothing : Prop :=
  ∀ (s s' t t' : State) (c : Command) (rest rest' : List HostAction) (i : Instr),
    s.host = .issue c :: rest → s'.host = .issue c :: rest' → s.frame = s'.frame →
    decode c.cmd = .ok i → i.op = 0 ∨ i.op = 1 ∨ i.op = 4 → spanPremise i = true →
    step s = .next t → step s' = .next t' →
      t.frame = t'.frame ∧
        ∃ r, t.responses = s.responses ++ [r] ∧ t'.responses = s'.responses ++ [r]

/-- 00_scope.md R12, 20_memory.md R54: a frame byte written reads back, every other byte reads as before, and the form is kept. -/
def Obligations.ByteReadAfterWrite : Prop :=
  ∀ (m : Memory) (b : Int) (v : U8), m.wf = true → 0 ≤ b → b < 8 →
    ∃ m', m.writeByte b v = .ok m' ∧ m'.wf = true ∧ m'.readByte b = .ok v ∧
      ∀ a : Int, a ≠ b → m'.readByte a = m.readByte a

/-! ### Errors -/

/-- 60_exceptions.md R181. -/
def Obligations.StatusCodes : Prop :=
  statusCode .ok = 0 ∧ statusCode .invalidLength = 1 ∧ statusCode .divisionByZero = 2 ∧
    statusCode .illegalCommand = 3

/-- 30_encoding.md R76, 60_exceptions.md R185, R189: an illegal word is answered ILLEGAL_COMMAND with no result and the frame unchanged, whatever its `length` field and whatever `FACTOR` hold, and nothing else changes; a legal word never is. That the machine answers and goes on, where 93_implementation_defined.md U10 names the treatment fault, is log entry 11. -/
def Obligations.IllegalWordAnswered : Prop :=
  ∀ (s : State) (c : Command) (rest : List HostAction), s.host = .issue c :: rest →
    ((∃ e, decode c.cmd = .error e) →
      step s = .next ⟨s.frame, rest, c, s.responses ++ [⟨.illegalCommand, none⟩], s.draws + 1⟩) ∧
    (∀ i t r, decode c.cmd = .ok i → step s = .next t → t.responses = s.responses ++ [r] →
      r.status ≠ .illegalCommand)

/-- 60_exceptions.md R191: the status of every command is the first that applies: illegal word; a zero `FACTOR` in ENCODE_LINEAR (`op` 3); a bad length; else OK. That an illegal word is answered and the machine goes on is log entry 11; that a command whose span leaves the frame is answered OK rests on 93_implementation_defined.md U1 as log entries 6 and 7 take it. -/
def Obligations.StatusIsFirstThatApplies : Prop :=
  ∀ (s : State) (c : Command) (rest : List HostAction), s.host = .issue c :: rest →
    ∃ t r, step s = .next t ∧ t.responses = s.responses ++ [r] ∧
      ((∃ e, decode c.cmd = .error e) → r.status = .illegalCommand) ∧
      ∀ i, decode c.cmd = .ok i →
        (i.op = 3 ∧ zeroFactor c → r.status = .divisionByZero) ∧
        (¬ (i.op = 3 ∧ zeroFactor c) → badLength i.length → r.status = .invalidLength) ∧
        (¬ (i.op = 3 ∧ zeroFactor c) → ¬ badLength i.length → r.status = .ok)

/-- 41_physical.md R144, 60_exceptions.md R183: ENCODE_LINEAR with `FACTOR` +0.0 or -0.0 answers DIVISION_BY_ZERO, the frame as it was; no other command and no other `FACTOR` does. -/
def Obligations.DivisionByZeroExactlyWhen : Prop :=
  (∀ (s : State) (be sg : Bool) (sb n : Nat), zeroFactor s.port →
    AnswersWith (exec (.encodeLinear be sg sb n) s) s s.frame .divisionByZero none) ∧
  ∀ (i : Instr) (s t : State) (r : Response), exec i s = .next t →
    t.responses = s.responses ++ [r] → r.status = .divisionByZero →
      (∃ be sg sb n, i = .encodeLinear be sg sb n) ∧ zeroFactor s.port

/-- 60_exceptions.md R182, 40_bitfield.md R101: a length of 0 or above 64 is answered INVALID_LENGTH by all six commands, nothing stored, and no other length is; ENCODE_LINEAR with a zero `FACTOR` is the one that answers otherwise (60_exceptions.md R190). -/
def Obligations.InvalidLengthRejected : Prop :=
  (∀ (i : Instr) (s : State), badLength i.length → ¬ (i.op = 3 ∧ zeroFactor s.port) →
    AnswersWith (exec i s) s s.frame .invalidLength none) ∧
  ∀ (i : Instr) (s t : State) (r : Response), exec i s = .next t →
    t.responses = s.responses ++ [r] → r.status = .invalidLength → badLength i.length

/-- 60_exceptions.md R186: for every command, if the status is not OK then the frame is bit for bit what it was and there is no result. -/
def Obligations.NoErrorChangesTheFrame : Prop :=
  ∀ (s t : State) (c : Command) (rest : List HostAction) (r : Response),
    s.host = .issue c :: rest → step s = .next t → t.responses = s.responses ++ [r] →
    r.status ≠ .ok → t.frame = s.frame ∧ r.result = none

/-- 60_exceptions.md R193: the command after an erroring one runs exactly as if the erroring one had not been issued: the same frame and the same response. (One draw index passes with each response, log entry 5, so the comparison starts one further.) -/
def Obligations.ErrorsDoNotLatch : Prop :=
  ∀ (s t u : State) (c d : Command) (rest : List HostAction) (r : Response),
    s.host = .issue c :: .issue d :: rest → step s = .next t →
    t.responses = s.responses ++ [r] → r.status ≠ .ok → step t = .next u →
      ∃ u' r', step { s with host := .issue d :: rest, draws := s.draws + 1 } = .next u' ∧
        u.frame = u'.frame ∧ u.host = u'.host ∧ u.port = u'.port ∧
        u.responses = s.responses ++ [r, r'] ∧ u'.responses = s.responses ++ [r']

/-! ### Fields of the frame -/

/-- 20_memory.md R46: the span premise for a 6-bit `startBit`, convention by convention. -/
def Obligations.SpanPremiseByConvention : Prop :=
  ∀ sb n : Nat, sb < 64 →
    (spanOK false sb n = true ↔ 1 ≤ n ∧ n ≤ 64 ∧ sb + n ≤ 64) ∧
    (spanOK true sb n = true ↔ 1 ≤ n ∧ n ≤ 64 ∧ n ≤ sb + 1)

/-- 20_memory.md R48, R51, 40_bitfield.md R121: the walk of a field that fits visits each byte its span meets once, and only those, takes 1 to 8 bits of each, `length` in all, in 1 to 8 steps: as many as the bytes the span meets, which is `ceil(length / 8)` or one more. -/
def Obligations.WalkVisitsTheSpan : Prop :=
  ∀ (be : Bool) (sb n : Nat), spanOK be sb n = true →
    let cs := chunks be sb n
    (cs.length : Int) = spanHi be sb n / 8 - spanLo be sb n / 8 + 1 ∧
      1 ≤ cs.length ∧ cs.length ≤ 8 ∧ (n + 7) / 8 ≤ cs.length ∧ cs.length ≤ (n + 7) / 8 + 1 ∧
      (cs.map Chunk.b).Nodup ∧ (cs.map Chunk.w).sum = n ∧
      ∀ c ∈ cs, spanLo be sb n / 8 ≤ c.b ∧ c.b ≤ spanHi be sb n / 8 ∧ 0 ≤ c.b ∧ c.b < 8 ∧
        1 ≤ c.w ∧ c.cl + c.w ≤ 8

/-- 40_bitfield.md R109 and R107, the closed form: EXTRACT answers OK with the number in the field as a 64-bit pattern; R108: and INVALID_LENGTH for a bad length; the frame stays. A span that leaves the frame is SpanOverflowGoesOn. -/
def Obligations.ExtractAnswersTheField : Prop :=
  ∀ (s : State) (be sg : Bool) (sb n : Nat),
    (spanOK be sb n = true →
      AnswersWith (exec (.extract be sg sb n) s) s s.frame .ok
        (some (BitVec.ofInt 64 (s.fieldNumber be sg sb n)))) ∧
    (badLength n → AnswersWith (exec (.extract be sg sb n) s) s s.frame .invalidLength none)

/-- 20_memory.md R44, R45: bit `k` of an unsigned EXTRACT is frame bit `startBit + k` little-endian and `startBit - (length - 1 - k)` big-endian, bit `p mod 8` of byte `p div 8`; bits from `length` on are 0. -/
def Obligations.FieldBitsInFrameBytes : Prop :=
  ∀ (s : State) (be : Bool) (sb n : Nat), spanOK be sb n = true →
    ∃ t v, exec (.extract be false sb n) s = .next t ∧
      t.responses = s.responses ++ [⟨.ok, some v⟩] ∧
      (∀ k, k < n →
        let p := if be then sb - (n - 1 - k) else sb + k
        v.getLsbD k = (s.frame.byteAt (p / 8)).getLsbD (p % 8)) ∧
      ∀ k, n ≤ k → v.getLsbD k = false

/-- 40_bitfield.md R107: a signed EXTRACT read as a signed integer is the number the field represents, its bits from `length` to 63 copies of bit `length-1`; an unsigned one is the field itself. -/
def Obligations.SignExtensionGivesTheNumber : Prop :=
  ∀ (s : State) (be : Bool) (sb n : Nat), spanOK be sb n = true →
    (∃ t v, exec (.extract be true sb n) s = .next t ∧
      t.responses = s.responses ++ [⟨.ok, some v⟩] ∧ v.toInt = s.fieldNumber be true sb n ∧
      ∀ k, n ≤ k → k < 64 → v.getLsbD k = v.getLsbD (n - 1)) ∧
    (∃ t v, exec (.extract be false sb n) s = .next t ∧
      t.responses = s.responses ++ [⟨.ok, some v⟩] ∧
      v.toNat = fieldValue s.frame.frame64 (spanLo be sb n) n)

/-- 10_state.md R27, 40_bitfield.md R108: what EXTRACT, DECODE_LINEAR and DECODE_FIXED leave unchanged: the frame byte by byte, the host's actions, the port and the earlier responses. -/
def Obligations.ReadingCommandsFrame : Prop :=
  ∀ (i : Instr) (s t : State), i.writes = false → exec i s = .next t →
    t.frame = s.frame ∧ (∀ a : Nat, t.frame.byteAt a = s.frame.byteAt a) ∧ t.host = s.host ∧
      t.port = s.port ∧ ∃ r, t.responses = s.responses ++ [r]

/-- 40_bitfield.md R120: what STORE, ENCODE_LINEAR and ENCODE_FIXED leave unchanged, whatever is stored and free values included: every frame bit outside the span, every byte the span does not meet, the host's actions, the port and the earlier responses. -/
def Obligations.WritingCommandsFrame : Prop :=
  ∀ (i : Instr) (s t : State), i.writes = true → s.inv = true → spanPremise i = true →
    exec i s = .next t →
    (∀ p : Nat, p < 64 →
      (p : Int) < spanLo i.bigEndian i.startBit i.length ∨
        spanHi i.bigEndian i.startBit i.length < (p : Int) →
      (t.frame.byteAt (p / 8)).getLsbD (p % 8) = (s.frame.byteAt (p / 8)).getLsbD (p % 8)) ∧
    (∀ a : Nat, (a : Int) < spanLo i.bigEndian i.startBit i.length / 8 ∨
        spanHi i.bigEndian i.startBit i.length / 8 < (a : Int) →
      t.frame.byteAt a = s.frame.byteAt a) ∧
    t.host = s.host ∧ t.port = s.port ∧ ∃ r, t.responses = s.responses ++ [r]

/-- 40_bitfield.md R113: a step of a store walk changes only bits `cl` to `cl + w - 1` of its byte, and bytes the walk does not visit are not written. -/
def Obligations.StoreStepTouchesOnlyItsBits : Prop :=
  (∀ (v : U64) (c : Chunk) (byte : U8) (k : Nat), k < 8 → c.cl + c.w ≤ 8 → k < c.cl ∨ c.cl + c.w ≤ k →
    (storeByte v c byte).getLsbD k = byte.getLsbD k) ∧
  ∀ (v : U64) (be : Bool) (sb n : Nat) (m m' : Memory) (a : Nat), m.wf = true →
    spanOK be sb n = true → storeWalk v (chunks be sb n) m = .ok m' →
    (∀ c ∈ chunks be sb n, c.b ≠ (a : Int)) → m'.byteAt a = m.byteAt a

/-- 40_bitfield.md R114, the closed form: STORE answers OK without a result and replaces the bits of the span by the low `length` bits of `VALUE`; R115: a bad length is INVALID_LENGTH and the frame stays. A span that leaves the frame is SpanOverflowGoesOn. -/
def Obligations.StoreReplacesTheField : Prop :=
  ∀ (s : State) (be sg : Bool) (sb n : Nat),
    (s.inv = true → spanOK be sb n = true →
      ∃ m : Memory, m.wf = true ∧
        m.frame64 = replaceField s.frame.frame64 (spanLo be sb n) n s.port.value ∧
        AnswersWith (exec (.store be sg sb n) s) s m .ok none) ∧
    (badLength n → AnswersWith (exec (.store be sg sb n) s) s s.frame .invalidLength none)

/-- 40_bitfield.md R116: storing the same value at the same place twice leaves the frame that storing it once leaves, and the frame after a STORE depends on the earlier frame only through the bits outside the span. -/
def Obligations.StoreIsIdempotent : Prop :=
  ∀ (be sg : Bool) (sb n : Nat), spanOK be sb n = true →
    (∀ s t u : State, s.inv = true → exec (.store be sg sb n) s = .next t →
      exec (.store be sg sb n) t = .next u → u.frame = t.frame) ∧
    ∀ s s' t t' : State, s.inv = true → s'.inv = true → s.port.value = s'.port.value →
      (∀ p : Nat, p < 64 → (p : Int) < spanLo be sb n ∨ spanHi be sb n < (p : Int) →
        s.frame.frame64.getLsbD p = s'.frame.frame64.getLsbD p) →
      exec (.store be sg sb n) s = .next t → exec (.store be sg sb n) s' = .next t' →
      t.frame = t'.frame

/-- 40_bitfield.md R117, 41_physical.md R147, 42_fixedpoint.md R167: `isSigned` has no effect in the three writing commands. -/
def Obligations.WritersIgnoreIsSigned : Prop :=
  ∀ (s : State) (be sg sg' : Bool) (sb n fb : Nat),
    exec (.store be sg sb n) s = exec (.store be sg' sb n) s ∧
    exec (.encodeLinear be sg sb n) s = exec (.encodeLinear be sg' sb n) s ∧
    exec (.encodeFixed be sg sb n fb) s = exec (.encodeFixed be sg' sb n fb) s

/-- 20_memory.md R47: a big-endian field at `sb` and a little-endian field at `sb - n + 1` are the same field, for EXTRACT and for STORE. -/
def Obligations.ConventionsNameTheSameLayouts : Prop :=
  ∀ (s : State) (sg : Bool) (sb n : Nat), s.inv = true → 1 ≤ n → n ≤ sb + 1 → sb < 64 →
    exec (.extract true sg sb n) s = exec (.extract false sg (sb + 1 - n) n) s ∧
    exec (.store true sg sb n) s = exec (.store false sg (sb + 1 - n) n) s

/-- 40_bitfield.md R118: an unsigned value below `2^length` stored and extracted with the same parameters comes back. -/
def Obligations.RoundTripUnsigned : Prop :=
  ∀ (s : State) (be : Bool) (sb n : Nat), s.inv = true → spanOK be sb n = true →
    s.port.value.toNat < 2 ^ n →
    ∃ t u, exec (.store be false sb n) s = .next t ∧ exec (.extract be false sb n) t = .next u ∧
      u.responses = s.responses ++ [⟨.ok, none⟩, ⟨.ok, some s.port.value⟩]

/-- 40_bitfield.md R119: a signed value in the range of the field stored and extracted with `isSigned` comes back; outside the range `sext_64` of its low `length` bits does. -/
def Obligations.RoundTripSigned : Prop :=
  ∀ (s : State) (be : Bool) (sb n : Nat), s.inv = true → spanOK be sb n = true →
    ∃ t u v, exec (.store be true sb n) s = .next t ∧ exec (.extract be true sb n) t = .next u ∧
      u.responses = s.responses ++ [⟨.ok, none⟩, ⟨.ok, some v⟩] ∧
      v.toInt = readAs true n (s.port.value.toNat % 2 ^ n) ∧
      (inFieldRange true n s.port.value.toInt → v = s.port.value)

/-! ### Floating point -/

/-- 00_scope.md R14, 41_physical.md R149: on finite operands `fadd`, `fsub`, `fmul` and `fdiv` (by a number that is not 0) are values of binary64 patterns and the exact result correctly rounded, to nearest, ties to even; so is the conversion of an integer. From which magnitude on the result is an infinity is log entry 18. -/
def Obligations.OperationsRoundToNearestEven : Prop :=
  (∀ x y : F64, (Fp.ofBits x).finite = true → (Fp.ofBits y).finite = true →
    ((Fp.ofBits x).add (Fp.ofBits y)).isNearest ((Fp.ofBits x).toRat + (Fp.ofBits y).toRat) ∧
    ((Fp.ofBits x).sub (Fp.ofBits y)).isNearest ((Fp.ofBits x).toRat - (Fp.ofBits y).toRat) ∧
    ((Fp.ofBits x).mul (Fp.ofBits y)).isNearest ((Fp.ofBits x).toRat * (Fp.ofBits y).toRat) ∧
    ((Fp.ofBits y).toRat ≠ 0 →
      ((Fp.ofBits x).div (Fp.ofBits y)).isNearest ((Fp.ofBits x).toRat / (Fp.ofBits y).toRat))) ∧
  ∀ i : Int, (Fp.ofInt i).isNearest (i : ℚ)

/-- 41_physical.md R141: the conversion of an integer of magnitude at most `2^53` is exact. -/
def Obligations.SmallIntegersConvertExactly : Prop :=
  ∀ i : Int, |i| ≤ 2 ^ 53 → (Fp.ofInt i).finite = true ∧ (Fp.ofInt i).toRat = (i : ℚ)

/-- 42_fixedpoint.md R161: the scale is the binary64 number exactly equal to `2^k`, with the pattern `(1023 + k) << 52`. -/
def Obligations.ScaleIsPowerOfTwo : Prop :=
  ∀ k : Nat, k < 64 →
    (Fp.pow2 k).toRat = 2 ^ k ∧ (Fp.pow2 k).toBits? = some (BitVec.ofNat 64 ((1023 + k) <<< 52))

/-- 00_scope.md R15: for a finite value `f2raw` is the integer nearest to it that is not greater in magnitude, modulo `2^64`; for a value that is not finite it is the free value CVT_NONFINITE, in the form that is the model's (log entry 8: drawn for each command, not one function of the value). -/
def Obligations.ConversionTruncatesTowardZero : Prop :=
  (∀ (s : State) (neg : Bool) (m : Nat) (e : Int),
    let t := truncFin neg m e
    let q := (Fp.fin neg m e).toRat
    s.f2raw (.fin neg m e) = BitVec.ofInt 64 t ∧ |(t : ℚ)| ≤ |q| ∧ |q - t| < 1 ∧
      (0 ≤ q → 0 ≤ t) ∧ (q ≤ 0 → t ≤ 0)) ∧
  ∀ (s : State) (x : Fp), x.finite = false → s.f2raw x = s.draw Config.cvtNonfinite

/-- 41_physical.md R149, R142, as IEEE 754 has it (log entry 18, PRESUMED): a NaN operand gives a NaN; infinities of opposite sign add to a NaN and of one sign to that infinity; zero times infinity, infinity over infinity and zero over zero are NaN; any other product or quotient with an infinity or a zero divisor is an infinity or a zero, its sign the exclusive or of the operands'. -/
def Obligations.InfinitiesAndNaNs : Prop :=
  ∀ v w : F64,
    let x := Fp.ofBits v
    let y := Fp.ofBits w
    (x = .nan ∨ y = .nan → x.add y = .nan ∧ x.sub y = .nan ∧ x.mul y = .nan ∧ x.div y = .nan) ∧
    (∀ a b : Bool, x = .inf a → y = .inf b →
      x.add y = (if a = b then .inf a else .nan) ∧ x.sub y = (if a = b then .nan else .inf a) ∧
        x.mul y = .inf (a ^^ b) ∧ x.div y = .nan) ∧
    (∀ a : Bool, x = .inf a → y.finite = true →
      x.add y = .inf a ∧ x.sub y = .inf a ∧
        x.mul y = (if y.isZero then .nan else .inf (a ^^ y.isNeg)) ∧ x.div y = .inf (a ^^ y.isNeg)) ∧
    (∀ b : Bool, x.finite = true → y = .inf b →
      x.add y = .inf b ∧ x.sub y = .inf (!b) ∧
        x.mul y = (if x.isZero then .nan else .inf (x.isNeg ^^ b)) ∧ x.div y = Fp.zero (x.isNeg ^^ b)) ∧
    (x.finite = true → y.isZero = true →
      x.div y = if x.isZero then .nan else .inf (x.isNeg ^^ y.isNeg))

/-- 00_scope.md R14, as IEEE 754 has it (log entry 18, PRESUMED): a product and a quotient of finite numbers have the exclusive or of the signs, rounded to zero or to an infinity or not; a sum that is exactly zero is -0.0 only when both operands are negative, as then both are zeros, and a difference accordingly; the integer 0 converts to +0.0. -/
def Obligations.SignsOfResults : Prop :=
  (∀ v w : F64,
    let x := Fp.ofBits v
    let y := Fp.ofBits w
    x.finite = true → y.finite = true →
      (x.mul y).isNeg = (x.isNeg ^^ y.isNeg) ∧
      (y.isZero = false → (x.div y).isNeg = (x.isNeg ^^ y.isNeg)) ∧
      (x.toRat + y.toRat = 0 → x.add y = Fp.zero (x.isNeg && y.isNeg)) ∧
      (x.toRat - y.toRat = 0 → x.sub y = Fp.zero (x.isNeg && !y.isNeg))) ∧
  Fp.ofInt 0 = Fp.zero false

/-! ### DECODE_LINEAR and ENCODE_LINEAR -/

/-- 41_physical.md R142: DECODE_LINEAR answers OK with the field's number converted, times `FACTOR`, plus `OFFSET`, each rounded by itself; a bad length is INVALID_LENGTH; the frame stays. -/
def Obligations.DecodeLinearAnswers : Prop :=
  ∀ (s : State) (be sg : Bool) (sb n : Nat),
    (spanOK be sb n = true →
      AnswersWith (exec (.decodeLinear be sg sb n) s) s s.frame .ok
        (some (s.resultBits
          (((Fp.ofInt (s.fieldNumber be sg sb n)).mul (Fp.ofBits s.port.factor)).add
            (Fp.ofBits s.port.offset))))) ∧
    (badLength n → AnswersWith (exec (.decodeLinear be sg sb n) s) s s.frame .invalidLength none)

/-- 93_implementation_defined.md U4: the pattern a decode command answers reads as the value computed; where that is a NaN, whatever its free sign and fraction, the pattern is a NaN. -/
def Obligations.DecodedPatternReadsAsComputed : Prop :=
  ∀ (s : State) (be sg : Bool) (sb n fb : Nat), spanOK be sb n = true → fb < 64 →
    (∃ t v, exec (.decodeLinear be sg sb n) s = .next t ∧
      t.responses = s.responses ++ [⟨.ok, some v⟩] ∧
      Fp.ofBits v = ((Fp.ofInt (s.fieldNumber be sg sb n)).mul (Fp.ofBits s.port.factor)).add
        (Fp.ofBits s.port.offset)) ∧
    (∃ t v, exec (.decodeFixed be sg sb n fb) s = .next t ∧
      t.responses = s.responses ++ [⟨.ok, some v⟩] ∧
      Fp.ofBits v = (Fp.ofInt (s.fieldNumber be sg sb n)).div (Fp.pow2 fb))

/-- 41_physical.md R142: a zero `FACTOR` is no error in DECODE_LINEAR: with a finite `OFFSET` the result is finite and equal to it as a number. -/
def Obligations.ZeroFactorDecodesToOffset : Prop :=
  ∀ (s : State) (be sg : Bool) (sb n : Nat), spanOK be sb n = true → zeroFactor s.port →
    (Fp.ofBits s.port.offset).finite = true →
    ∃ t v, exec (.decodeLinear be sg sb n) s = .next t ∧
      t.responses = s.responses ++ [⟨.ok, some v⟩] ∧ (Fp.ofBits v).finite = true ∧
      (Fp.ofBits v).toRat = (Fp.ofBits s.port.offset).toRat

/-- 41_physical.md R146: ENCODE_LINEAR with a `FACTOR` that is not zero answers OK and stores `trunc(t) mod 2^length`, `t` the rounded quotient of the rounded difference; where `t` is not finite it stores some value in the field; a bad length is INVALID_LENGTH and a zero `FACTOR` DIVISION_BY_ZERO, the frame unchanged. -/
def Obligations.EncodeLinearStores : Prop :=
  ∀ (s : State) (be sg : Bool) (sb n : Nat),
    let q := ((Fp.ofBits s.port.value).sub (Fp.ofBits s.port.offset)).div (Fp.ofBits s.port.factor)
    (¬ zeroFactor s.port → s.inv = true → spanOK be sb n = true →
      ∃ (m : Memory) (raw : U64), m.wf = true ∧
        m.frame64 = replaceField s.frame.frame64 (spanLo be sb n) n raw ∧
        AnswersWith (exec (.encodeLinear be sg sb n) s) s m .ok none ∧
        ∀ neg mant e, q = .fin neg mant e → raw = BitVec.ofInt 64 (truncFin neg mant e)) ∧
    (¬ zeroFactor s.port → badLength n →
      AnswersWith (exec (.encodeLinear be sg sb n) s) s s.frame .invalidLength none) ∧
    (zeroFactor s.port →
      AnswersWith (exec (.encodeLinear be sg sb n) s) s s.frame .divisionByZero none)

/-- 41_physical.md R148: if the quotient is finite and its truncation is in the field's range, a DECODE_LINEAR with the same parameters sees that integer. -/
def Obligations.LinearDecodeAfterEncode : Prop :=
  ∀ (s : State) (be sg : Bool) (sb n : Nat) (neg : Bool) (mant : Nat) (e : Int),
    s.inv = true → spanOK be sb n = true → ¬ zeroFactor s.port →
    ((Fp.ofBits s.port.value).sub (Fp.ofBits s.port.offset)).div (Fp.ofBits s.port.factor) =
      .fin neg mant e →
    inFieldRange sg n (truncFin neg mant e) →
    ∃ t u v, exec (.encodeLinear be sg sb n) s = .next t ∧
      exec (.decodeLinear be sg sb n) t = .next u ∧
      u.responses = s.responses ++ [⟨.ok, none⟩, ⟨.ok, some v⟩] ∧
      Fp.ofBits v = ((Fp.ofInt (truncFin neg mant e)).mul (Fp.ofBits s.port.factor)).add
        (Fp.ofBits s.port.offset)

/-! ### DECODE_FIXED and ENCODE_FIXED -/

/-- 42_fixedpoint.md R162: DECODE_FIXED answers OK with the field's number converted and divided by the scale; a bad length is INVALID_LENGTH; the frame stays. -/
def Obligations.DecodeFixedAnswers : Prop :=
  ∀ (s : State) (be sg : Bool) (sb n fb : Nat),
    (spanOK be sb n = true →
      AnswersWith (exec (.decodeFixed be sg sb n fb) s) s s.frame .ok
        (some (s.resultBits ((Fp.ofInt (s.fieldNumber be sg sb n)).div (Fp.pow2 fb))))) ∧
    (badLength n → AnswersWith (exec (.decodeFixed be sg sb n fb) s) s s.frame .invalidLength none)

/-- 42_fixedpoint.md R164 and R162: the result of DECODE_FIXED is finite and never -0.0, and equals the number over `2^fractionalBits` exactly whenever `length ≤ 53`. -/
def Obligations.DecodeFixedIsExact : Prop :=
  ∀ (s : State) (be sg : Bool) (sb n fb : Nat), spanOK be sb n = true → fb < 64 →
    ∃ t v, exec (.decodeFixed be sg sb n fb) s = .next t ∧
      t.responses = s.responses ++ [⟨.ok, some v⟩] ∧ (Fp.ofBits v).finite = true ∧
      v ≠ 0x8000000000000000 ∧
      (n ≤ 53 → (Fp.ofBits v).toRat = (s.fieldNumber be sg sb n : ℚ) / 2 ^ fb)

/-- 42_fixedpoint.md R166: ENCODE_FIXED answers OK and stores `trunc(s) mod 2^length`, `s` the value times the scale; where `s` is not finite it stores some value in the field; a bad length is INVALID_LENGTH, the frame unchanged. -/
def Obligations.EncodeFixedStores : Prop :=
  ∀ (s : State) (be sg : Bool) (sb n fb : Nat),
    (s.inv = true → spanOK be sb n = true →
      ∃ (m : Memory) (raw : U64), m.wf = true ∧
        m.frame64 = replaceField s.frame.frame64 (spanLo be sb n) n raw ∧
        AnswersWith (exec (.encodeFixed be sg sb n fb) s) s m .ok none ∧
        ∀ neg mant e, (Fp.ofBits s.port.value).mul (Fp.pow2 fb) = .fin neg mant e →
          raw = BitVec.ofInt 64 (truncFin neg mant e)) ∧
    (badLength n → AnswersWith (exec (.encodeFixed be sg sb n fb) s) s s.frame .invalidLength none)

/-- 42_fixedpoint.md R168: if `VALUE` is finite and `VALUE * 2^fractionalBits` is an integer in the field's range, ENCODE_FIXED and then DECODE_FIXED with the same fields return `VALUE` exactly, for every length: the integer is representable because `VALUE` is. -/
def Obligations.FixedPointRoundTrip : Prop :=
  ∀ (s : State) (be sg : Bool) (sb n fb : Nat) (k : Int), s.inv = true → spanOK be sb n = true →
    fb < 64 → (Fp.ofBits s.port.value).finite = true →
    (Fp.ofBits s.port.value).toRat * 2 ^ fb = (k : ℚ) → inFieldRange sg n k →
    ∃ t u v, exec (.encodeFixed be sg sb n fb) s = .next t ∧
      exec (.decodeFixed be sg sb n fb) t = .next u ∧
      u.responses = s.responses ++ [⟨.ok, none⟩, ⟨.ok, some v⟩] ∧
      (Fp.ofBits v).toRat = (Fp.ofBits s.port.value).toRat

/-- 42_fixedpoint.md R168 where the product is no integer: with `k` the integer nearest to `VALUE * 2^fractionalBits` that is not greater in magnitude, in the field's range, ENCODE_FIXED and then DECODE_FIXED return `k / 2^fractionalBits` exactly, which is nearer to zero than `VALUE` by less than `2^-fractionalBits`. -/
def Obligations.FixedPointTruncates : Prop :=
  ∀ (s : State) (be sg : Bool) (sb n fb : Nat) (k : Int), s.inv = true → spanOK be sb n = true →
    fb < 64 → (Fp.ofBits s.port.value).finite = true →
    let q := (Fp.ofBits s.port.value).toRat * 2 ^ fb
    |(k : ℚ)| ≤ |q| → |q - k| < 1 → (0 ≤ q → 0 ≤ k) → (q ≤ 0 → k ≤ 0) → inFieldRange sg n k →
    ∃ t u v, exec (.encodeFixed be sg sb n fb) s = .next t ∧
      exec (.decodeFixed be sg sb n fb) t = .next u ∧
      u.responses = s.responses ++ [⟨.ok, none⟩, ⟨.ok, some v⟩] ∧
      (Fp.ofBits v).toRat = (k : ℚ) / 2 ^ fb ∧
      |(Fp.ofBits v).toRat| ≤ |(Fp.ofBits s.port.value).toRat| ∧
      |(Fp.ofBits s.port.value).toRat - (Fp.ofBits v).toRat| < 1 / 2 ^ fb

/-! ### What the spec leaves open -/

/-- 93_implementation_defined.md U1: a valid length whose span leaves the frame is answered OK by every command; a reading command leaves the frame and answers some result, a writing command leaves some eight bytes. That the model goes on with free values is its choice (log entries 6 and 7). -/
def Obligations.SpanOverflowGoesOn : Prop :=
  ∀ (i : Instr) (s : State), ¬ badLength i.length → spanPremise i = false →
    ¬ (i.op = 3 ∧ zeroFactor s.port) →
    (i.writes = false → ∃ v, AnswersWith (exec i s) s s.frame .ok (some v)) ∧
    (i.writes = true → ∃ m : Memory, m.wf = true ∧ AnswersWith (exec i s) s m .ok none)

/-- 10_state.md R30: a response carries a result exactly when its command is one of the three reading commands and its status is OK. -/
def Obligations.ResultExactlyFromReaders : Prop :=
  ∀ (s t : State) (c : Command) (rest : List HostAction) (r : Response),
    s.host = .issue c :: rest → step s = .next t → t.responses = s.responses ++ [r] →
    (r.result.isSome = true ↔ r.status = .ok ∧ ∃ i, decode c.cmd = .ok i ∧ i.writes = false)

end
end

