-- ==== Sys2Proof/Laws/Bits.lean ====
section
/-! SUPPORT. What the masks and the sign-extension step do, bit by bit. -/
namespace Sys2Proof.Machine

/-- Bit `k` of a mask is set exactly below its width. -/
@[simp] theorem mask_bit (N n k : Nat) : (mask N n).getLsbD k = (decide (k < N) && decide (k < n)) := by
  simp [mask, BitVec.getLsbD_ofNat, Nat.testBit_two_pow_sub_one]

@[simp] theorem mask_getElem (N n k : Nat) (hk : k < N) : (mask N n)[k] = decide (k < n) := by
  rw [← BitVec.getLsbD_eq_getElem, mask_bit]
  simp [hk]

@[simp] theorem maskTo_bit (n k : Nat) (v : U64) :
    (maskTo n v).getLsbD k = (decide (k < n) && v.getLsbD k) := by
  by_cases hk : k < 64
  · simp [maskTo, hk, Bool.and_comm]
  · simp [maskTo, hk, BitVec.getLsbD_of_ge v k (by omega)]

/-- The bits of `mask(64) - mask(n)` are those from `n` up. -/
theorem highMask_bit {n k : Nat} (hk : k < 64) :
    (mask 64 64 - mask 64 n).getLsbD k = decide (n ≤ k) := by
  have h : mask 64 64 - mask 64 n = ~~~ mask 64 n := by
    have hall : mask 64 64 = BitVec.allOnes 64 := by decide
    rw [hall, BitVec.allOnes_sub_eq_not]
  rw [h, BitVec.getLsbD_not]
  simp only [mask_bit, hk, decide_true, Bool.true_and, ← decide_not, Nat.not_lt]

/-- The sign-extension step, bit by bit. -/
theorem signStep_bit {n k : Nat} (hk : k < 64) (sg : Bool) (v : U64) :
    (signStep sg n v).getLsbD k =
      (v.getLsbD k || (sg && v.getLsbD (n - 1) && decide (n ≤ k))) := by
  unfold signStep
  split
  · next h => simp [highMask_bit hk, h]
  · next h => simp [Bool.eq_false_iff.2 h]

end Sys2Proof.Machine
end

