-- ==== Sys2Proof/Laws/Decode.lean ====
section
/-! SUPPORT. What the decoder answers, in terms of the fields of the word. -/
namespace Sys2Proof

/-- The fields of a word are those of a command, the reserved ones 0 (30_encoding.md R71, R74). -/
def FieldsAre (w : CmdWord) (i : Instr) : Prop :=
  BitRange.rsv0.read w = 0 ∧ BitRange.rsv1.read w = 0 ∧ BitRange.rsv2.read w = 0 ∧
    BitRange.op.read w = i.op ∧ BitRange.bigEndian.read w = i.bigEndian.toNat ∧
    BitRange.isSigned.read w = i.isSigned.toNat ∧ BitRange.startBit.read w = i.startBit ∧
    BitRange.length.read w = i.length ∧ BitRange.fractionalBits.read w = i.fractionalBits

/-- A one-bit field read as a Bool. -/
theorem BitRange.toNat_read_eq_one {r : BitRange} (h : r.width = 1) (w : CmdWord) :
    (r.read w == 1).toNat = r.read w := by
  have hlt : r.read w < 2 := by
    unfold BitRange.read
    rw [h]
    exact Nat.mod_lt _ (by decide)
  interval_cases r.read w <;> rfl

/-- The decoder answers a command exactly when the word's fields are that command's. -/
theorem decode_eq_ok_iff {w : CmdWord} {i : Instr} : decode w = .ok i ↔ FieldsAre w i := by
  have hb := BitRange.toNat_read_eq_one (r := BitRange.bigEndian) rfl w
  have hs := BitRange.toNat_read_eq_one (r := BitRange.isSigned) rfl w
  constructor
  · intro h
    unfold decode at h
    split at h
    · cases h
    split at h
    · cases h
    split at h
    · cases h
    next h0 h1 h2 =>
    simp only [not_not] at h0 h1 h2
    dsimp only at h
    unfold FieldsAre
    split at h <;> (try unfold decodeNoFraction at h) <;> (try split at h) <;> cases h <;>
      simp_all [Instr.op, Instr.bigEndian, Instr.isSigned, Instr.startBit, Instr.length,
        Instr.fractionalBits]
  · rintro ⟨h0, h1, h2, h3, h4, h5, h6, h7, h8⟩
    have hbool : ∀ b : Bool, (b.toNat == 1) = b := by decide
    unfold decode decodeNoFraction
    rw [h0, h1, h2, h3, h4, h5, h6, h7, h8]
    cases i <;> simp [Instr.op, Instr.bigEndian, Instr.isSigned, Instr.startBit, Instr.length,
      Instr.fractionalBits, hbool]

/-- A command the decoder answers has a number below 6. -/
theorem Instr.op_lt (i : Instr) : i.op < 6 := by
  cases i <;> simp [Instr.op]

/-- The number of a command determines its mnemonic (30_encoding.md R74). -/
theorem Instr.mnemonic_of_op (i : Instr) :
    (i.op = 0 ∧ i.mnemonic = "EXTRACT") ∨ (i.op = 1 ∧ i.mnemonic = "STORE") ∨
      (i.op = 2 ∧ i.mnemonic = "DECODE_LINEAR") ∨ (i.op = 3 ∧ i.mnemonic = "ENCODE_LINEAR") ∨
      (i.op = 4 ∧ i.mnemonic = "DECODE_FIXED") ∨ (i.op = 5 ∧ i.mnemonic = "ENCODE_FIXED") := by
  cases i <;> simp [Instr.op, Instr.mnemonic]

/-- The words without a command, in terms of their fields (30_encoding.md R76). -/
theorem decode_error_iff (w : CmdWord) :
    (∃ e, decode w = .error e) ↔
      BitRange.rsv0.read w ≠ 0 ∨ BitRange.rsv1.read w ≠ 0 ∨ BitRange.rsv2.read w ≠ 0 ∨
        6 ≤ BitRange.op.read w ∨ (BitRange.op.read w ≤ 3 ∧ BitRange.fractionalBits.read w ≠ 0) := by
  have hop : BitRange.op.read w < 8 := Nat.mod_lt _ (by decide)
  unfold decode decodeNoFraction
  generalize BitRange.op.read w = op at *
  by_cases h0 : BitRange.rsv0.read w = 0 <;> by_cases h1 : BitRange.rsv1.read w = 0 <;>
    by_cases h2 : BitRange.rsv2.read w = 0 <;> simp [h0, h1, h2]
  interval_cases op <;> simp
  all_goals by_cases h : BitRange.fractionalBits.read w = 0 <;> simp [h]

/-- A field as a slice of the word. -/
theorem BitRange.read_eq_extract (r : BitRange) (w : CmdWord) :
    r.read w = (w.extractLsb' r.lo r.width).toNat := by
  simp only [BitVec.extractLsb'_toNat, Nat.shiftRight_eq_div_pow]
  rfl

/-- A field equals a number in its range exactly when its bits are that number's. -/
theorem BitRange.read_eq_iff (r : BitRange) (w : CmdWord) {v : Nat} (hv : v < 2 ^ r.width) :
    r.read w = v ↔ ∀ k, k < r.width → w.getLsbD (r.lo + k) = v.testBit k := by
  have hbit : ∀ k, (r.read w).testBit k = (decide (k < r.width) && w.getLsbD (r.lo + k)) := fun k => by
    rw [BitRange.read, Nat.testBit_mod_two_pow, Nat.testBit_div_two_pow, Nat.add_comm, BitVec.testBit_toNat]
  constructor
  · rintro h k hk
    rw [← h, hbit, decide_eq_true hk, Bool.true_and]
  · intro h
    apply Nat.eq_of_testBit_eq
    intro k
    rw [hbit]
    by_cases hk : k < r.width
    · rw [decide_eq_true hk, Bool.true_and, h k hk]
    · rw [decide_eq_false hk, Bool.false_and, Nat.testBit_lt_two_pow]
      exact lt_of_lt_of_le hv (Nat.pow_le_pow_right (by omega) (not_lt.1 hk))

/-- A word selects a row, bit by bit. -/
theorem OpcodeRow.selects_iff (r : OpcodeRow) (w : CmdWord) :
    r.selects w = true ↔
      ∀ k, k < 32 → (w.getLsbD k && r.mask.toNat.testBit k) = r.pattern.toNat.testBit k := by
  simp only [BitVec.testBit_toNat]
  rw [OpcodeRow.selects, beq_iff_eq]
  constructor
  · intro h k _
    rw [← h, BitVec.getLsbD_and]
  · intro h
    apply BitVec.eq_of_getLsbD_eq
    intro k hk
    rw [BitVec.getLsbD_and]
    exact h k hk

/-- What a row of the table selects, in terms of the fields of the word (30_encoding.md R74). -/
theorem OpcodeRow.selects_fields {row : OpcodeRow} (h : row ∈ opcodeRows) (w : CmdWord) :
    row.selects w = true ↔
      BitRange.rsv0.read w = 0 ∧ BitRange.op.read w = row.op ∧ BitRange.rsv1.read w = 0 ∧
        BitRange.rsv2.read w = 0 ∧ (row.op ≤ 3 → BitRange.fractionalBits.read w = 0) := by
  have hop : row.op < 2 ^ BitRange.op.width := by
    revert h
    simp only [opcodeRows, List.mem_cons, List.not_mem_nil, or_false]
    rintro (rfl | rfl | rfl | rfl | rfl | rfl) <;> decide
  rw [OpcodeRow.selects_iff, BitRange.read_eq_iff _ w hop, BitRange.read_eq_iff _ w (Nat.two_pow_pos _),
    BitRange.read_eq_iff _ w (Nat.two_pow_pos _), BitRange.read_eq_iff _ w (Nat.two_pow_pos _),
    BitRange.read_eq_iff _ w (Nat.two_pow_pos _)]
  simp only [opcodeRows, List.mem_cons, List.not_mem_nil, or_false] at h
  have hlt : ∀ (n : Nat) (P : Nat → Prop), (∀ k, k < n + 1 → P k) ↔ (P n ∧ ∀ k, k < n → P k) := fun n P => by
    constructor
    · exact fun h => ⟨h n (by omega), fun k hk => h k (by omega)⟩
    · rintro ⟨h1, h2⟩ k hk
      rcases Nat.lt_succ_iff_lt_or_eq.1 hk with h | rfl
      · exact h2 k h
      · exact h1
  rcases h with rfl | rfl | rfl | rfl | rfl | rfl <;>
  · simp only [hlt, BitRange.rsv0, BitRange.rsv1, BitRange.rsv2, BitRange.op, BitRange.fractionalBits, Config.fracFieldWidth]
    simp (decide := true) [Nat.testBit_eq_decide_div_mod_eq]
    tauto

end Sys2Proof
end

