-- ==== Sys2Proof/Laws/Float.lean ====
section
/-! SUPPORT. Binary64: patterns and values, and what one rounding gives. -/
namespace Sys2Proof.Machine

/-! The definitions with the numbers of binary64 written out: the one place where the laws see `Config.floatFormat`. -/

theorem Fp.eMin_eq : Fp.eMin = -1074 := rfl
theorem Fp.eMax_eq : Fp.eMax = 971 := rfl
theorem Fp.zero_eq (neg : Bool) : Fp.zero neg = .fin neg 0 (-1074) := rfl

theorem Fp.ofBits_eq (x : F64) :
    Fp.ofBits x =
      if (x.extractLsb' 52 11).toNat = 2047 then
        if (x.extractLsb' 0 52).toNat = 0 then .inf (x.getLsbD 63) else .nan
      else if (x.extractLsb' 52 11).toNat = 0 then
        .fin (x.getLsbD 63) (x.extractLsb' 0 52).toNat (-1074)
      else
        .fin (x.getLsbD 63) (2 ^ 52 + (x.extractLsb' 0 52).toNat)
          (((x.extractLsb' 52 11).toNat : Int) - 1075) := rfl

theorem packBits_eq (neg : Bool) (expo frac : Nat) :
    packBits neg expo frac = BitVec.ofNat 64 (neg.toNat * 2 ^ 63 + expo * 2 ^ 52 + frac) := rfl

theorem Fp.toBits?_inf (neg : Bool) : (Fp.inf neg).toBits? = some (packBits neg 2047 0) := rfl

theorem Fp.toBits?_fin (neg : Bool) (m : Nat) (e : Int) :
    (Fp.fin neg m e).toBits? =
      if m < 2 ^ 52 then some (packBits neg 0 m)
      else some (packBits neg (e + 1075).toNat (m - 2 ^ 52)) := rfl

theorem nanBits_eq (neg : Bool) (frac : BitVec 52) :
    nanBits neg frac = packBits neg 2047 (if frac = 0 then 1 else frac.toNat) := rfl

theorem roundRat_eq (r : Rounding) (neg : Bool) (num den : Nat) :
    roundRat r neg num den =
      if num = 0 then Fp.zero neg
      else
        let e := max (ratLog2 num den - 52) (-1074)
        let m := roundQuotient r (scaleUp num (-e)) (scaleUp den e)
        let p := if m = 2 ^ 53 then (2 ^ 52, e + 1) else (m, e)
        if 971 < p.2 then overflowed r neg else .fin neg p.1 p.2 := rfl

theorem Fp.pow2_eq (k : Nat) : Fp.pow2 k = Fp.ofBits (BitVec.ofNat 64 ((1023 + k) * 2 ^ 52)) := rfl

/-! Patterns and values. -/

theorem packBits_toNat {neg : Bool} {expo frac : Nat} (he : expo < 2 ^ 11) (hf : frac < 2 ^ 52) :
    (packBits neg expo frac).toNat = neg.toNat * 2 ^ 63 + expo * 2 ^ 52 + frac := by
  cases neg <;> simp only [packBits_eq, BitVec.toNat_ofNat, Bool.toNat_false, Bool.toNat_true] <;> omega

/-- The three fields of a pattern as quotients and remainders of its number. -/
theorem patternFields (x : F64) :
    (x.getLsbD 63).toNat = x.toNat / 2 ^ 63 % 2 ∧
      (x.extractLsb' 52 11).toNat = x.toNat / 2 ^ 52 % 2 ^ 11 ∧
      (x.extractLsb' 0 52).toNat = x.toNat % 2 ^ 52 := by
  refine ⟨?_, ?_, ?_⟩
  · rw [← BitVec.testBit_toNat, Nat.toNat_testBit]
  · rw [BitVec.extractLsb'_toNat, Nat.shiftRight_eq_div_pow]
  · rw [BitVec.extractLsb'_toNat, Nat.shiftRight_zero]

/-- The three fields of a packed pattern read back. -/
theorem packBits_fields {neg : Bool} {expo frac : Nat} (he : expo < 2 ^ 11) (hf : frac < 2 ^ 52) :
    (packBits neg expo frac).getLsbD 63 = neg ∧
      ((packBits neg expo frac).extractLsb' 52 11).toNat = expo ∧
      ((packBits neg expo frac).extractLsb' 0 52).toNat = frac := by
  have h := packBits_toNat (neg := neg) he hf
  have hneg : neg.toNat < 2 := Bool.toNat_lt neg
  obtain ⟨h1, h2, h3⟩ := patternFields (packBits neg expo frac)
  rw [h] at h1 h2 h3
  refine ⟨?_, h2.trans ?_, h3.trans ?_⟩
  · have hs : ((packBits neg expo frac).getLsbD 63).toNat = neg.toNat := h1.trans (by omega)
    revert hs
    cases (packBits neg expo frac).getLsbD 63 <;> cases neg <;> simp
  all_goals omega

/-- A pattern is its three fields. -/
theorem packBits_of_fields (x : F64) :
    packBits (x.getLsbD 63) (x.extractLsb' 52 11).toNat (x.extractLsb' 0 52).toNat = x := by
  apply BitVec.eq_of_toNat_eq
  rw [packBits_toNat (x.extractLsb' 52 11).isLt (x.extractLsb' 0 52).isLt]
  have hx := x.isLt
  obtain ⟨h1, h2, h3⟩ := patternFields x
  rw [h1, h2, h3]
  omega

theorem Fp.ofBits_canonical (x : F64) : (Fp.ofBits x).canonical = true := by
  have hf : (x.extractLsb' 0 52).toNat < 2 ^ 52 := (x.extractLsb' 0 52).isLt
  have he : (x.extractLsb' 52 11).toNat < 2 ^ 11 := (x.extractLsb' 52 11).isLt
  simp only [Fp.ofBits_eq]
  split
  · split <;> rfl
  · split
    · simp only [Fp.canonical, Bool.or_eq_true, Bool.and_eq_true, decide_eq_true_eq]
      exact .inl ⟨hf, trivial⟩
    · simp only [Fp.canonical, Bool.or_eq_true, Bool.and_eq_true, decide_eq_true_eq]
      omega

/-- Writing a canonical value as a pattern and reading it gives the value. -/
theorem Fp.ofBits_of_toBits {x : Fp} (hx : x.canonical = true) {b : F64} (h : x.toBits? = some b) :
    Fp.ofBits b = x := by
  cases x with
  | nan => simp [Fp.toBits?] at h
  | inf neg =>
    simp only [Fp.toBits?_inf, Option.some.injEq] at h
    subst h
    obtain ⟨h1, h2, h3⟩ := packBits_fields (neg := neg) (expo := 2047) (frac := 0) (by omega) (by omega)
    simp only [Fp.ofBits_eq, h1, h2, h3, if_true]
  | fin neg m e =>
    simp only [Fp.canonical, Bool.or_eq_true, Bool.and_eq_true, decide_eq_true_eq] at hx
    by_cases hm : m < 2 ^ 52
    · simp only [Fp.toBits?_fin, hm, if_true, Option.some.injEq] at h
      subst h
      obtain ⟨h1, h2, h3⟩ := packBits_fields (neg := neg) (expo := 0) (frac := m) (by omega) hm
      have he : e = -1074 := by omega
      simp only [Fp.ofBits_eq, h1, h2, h3, he, if_true, if_neg (show ¬ (0 = 2047) by omega)]
    · simp only [Fp.toBits?_fin, hm, if_false, Option.some.injEq] at h
      subst h
      obtain ⟨h1, h2, h3⟩ := packBits_fields (neg := neg) (expo := (e + 1075).toNat) (frac := m - 2 ^ 52)
        (by omega) (by omega)
      have h4 : (e + 1075).toNat ≠ 2047 := by omega
      have h5 : (e + 1075).toNat ≠ 0 := by omega
      simp only [Fp.ofBits_eq, h1, h2, h3, h4, h5, if_false, Fp.fin.injEq, true_and]
      omega

/-- A canonical value that is no NaN is the value of a pattern. -/
theorem Fp.exists_bits {x : Fp} (hx : x.canonical = true) (hn : x ≠ .nan) : ∃ b, Fp.ofBits b = x := by
  cases h : x.toBits? with
  | some b => exact ⟨b, Fp.ofBits_of_toBits hx h⟩
  | none =>
    cases x with
    | nan => exact absurd rfl hn
    | inf _ => simp [Fp.toBits?_inf] at h
    | fin _ _ _ =>
      rw [Fp.toBits?_fin] at h
      split at h <;> cases h

/-- Reading a pattern that is no NaN and writing the value gives the pattern. -/
theorem Fp.toBits_of_ofBits {x : F64} (h : Fp.ofBits x ≠ .nan) : (Fp.ofBits x).toBits? = some x := by
  have hf : (x.extractLsb' 0 52).toNat < 2 ^ 52 := (x.extractLsb' 0 52).isLt
  have hp := packBits_of_fields x
  simp only [Fp.ofBits_eq] at h ⊢
  split at h
  · next h1 =>
    split at h
    · next h2 =>
      rw [if_pos h1, if_pos h2, Fp.toBits?_inf]
      rw [h1, h2] at hp
      rw [hp]
    · exact absurd rfl h
  · next h1 =>
    rw [if_neg h1]
    split
    · next h2 =>
      rw [Fp.toBits?_fin, if_pos hf]
      rw [h2] at hp
      rw [hp]
    · next h2 =>
      have hlt : ¬ 2 ^ 52 + (x.extractLsb' 0 52).toNat < 2 ^ 52 := by omega
      rw [Fp.toBits?_fin, if_neg hlt]
      have h3 : (((x.extractLsb' 52 11).toNat : Int) - 1075 + 1075).toNat = (x.extractLsb' 52 11).toNat := by
        omega
      rw [h3, show 2 ^ 52 + (x.extractLsb' 0 52).toNat - 2 ^ 52 = (x.extractLsb' 0 52).toNat by omega, hp]

/-- Every NaN pattern the model can give reads as a NaN (93_implementation_defined.md U4). -/
theorem Fp.ofBits_nanBits (neg : Bool) (frac : BitVec 52) : Fp.ofBits (nanBits neg frac) = .nan := by
  have hlt : frac.toNat < 2 ^ 52 := frac.isLt
  have hne : frac ≠ 0 → frac.toNat ≠ 0 := fun h h0 => h (BitVec.eq_of_toNat_eq (by simpa using h0))
  have hfrac : (if frac = 0 then 1 else frac.toNat) < 2 ^ 52 := by split <;> omega
  have hpos : (if frac = 0 then 1 else frac.toNat) ≠ 0 := by
    split
    · omega
    · next h => exact hne h
  obtain ⟨h1, h2, h3⟩ := packBits_fields (neg := neg) (expo := 2047) (by omega) hfrac
  simp only [nanBits_eq, Fp.ofBits_eq, h2, h3, hpos, if_true, if_false]

/-- The reading of an F64 result is the value computed, NaN or not. -/
theorem State.ofBits_resultBits (s : State) {x : Fp} (hx : x.canonical = true) :
    Fp.ofBits (s.resultBits x) = x := by
  unfold State.resultBits
  split
  · next b h => exact Fp.ofBits_of_toBits hx h
  · next h =>
    rw [Fp.ofBits_nanBits]
    cases x with
    | nan => rfl
    | inf _ => simp [Fp.toBits?_inf] at h
    | fin _ m _ =>
      simp only [Fp.toBits?_fin] at h
      split at h <;> simp at h

/-! One rounding. -/

theorem scaleUp_pos {n : Nat} (h : 0 < n) (k : Int) : 0 < scaleUp n k :=
  Nat.mul_pos h (Nat.two_pow_pos _)

/-- Scaling numerator and denominator is scaling the quotient. -/
theorem scaleUp_div (num den : Nat) (k : Int) :
    ((scaleUp num (-k) : Nat) : ℚ) / (scaleUp den k : Nat) = (num : ℚ) / den / 2 ^ k := by
  have h : (2 : ℚ) ^ k = 2 ^ k.toNat / 2 ^ (-k).toNat := by
    rcases le_total 0 k with hk | hk
    · obtain ⟨n, rfl⟩ := Int.eq_ofNat_of_zero_le hk
      simp
    · obtain ⟨n, hn⟩ := Int.eq_ofNat_of_zero_le (show 0 ≤ -k by omega)
      obtain rfl : k = -(n : Int) := by omega
      simp
  rw [h]
  simp only [scaleUp, Nat.cast_mul, Nat.cast_pow, Nat.cast_ofNat]
  have h2 : (2 : ℚ) ^ (-k).toNat ≠ 0 := by positivity
  have h3 : (2 : ℚ) ^ k.toNat ≠ 0 := by positivity
  by_cases hd : (den : ℚ) = 0
  · simp [hd]
  · field_simp

theorem scaleUp_le_iff {num den : Nat} (hd : 0 < den) (k : Int) :
    scaleUp den k ≤ scaleUp num (-k) ↔ (2 : ℚ) ^ k ≤ (num : ℚ) / den := by
  have hs : (0 : ℚ) < (scaleUp den k : Nat) := by exact_mod_cast scaleUp_pos hd k
  have h2 : (0 : ℚ) < 2 ^ k := by positivity
  have key := scaleUp_div num den k
  rw [← Nat.cast_le (α := ℚ), ← one_le_div hs, key, one_le_div h2]

/-- `ratLog2` is the binary logarithm of a positive quotient, rounded down. -/
theorem ratLog2_spec {num den : Nat} (hn : 0 < num) (hd : 0 < den) :
    (2 : ℚ) ^ ratLog2 num den ≤ (num : ℚ) / den ∧ (num : ℚ) / den < 2 ^ (ratLog2 num den + 1) := by
  have hdq : (0 : ℚ) < den := by exact_mod_cast hd
  have hn1 : (2 : ℚ) ^ (num.log2 : Int) ≤ num := by
    rw [zpow_natCast]
    exact_mod_cast Nat.log2_self_le (by omega)
  have hn2 : (num : ℚ) < 2 ^ ((num.log2 : Int) + 1) := by
    have := Nat.lt_log2_self (n := num)
    rw [show (num.log2 : Int) + 1 = ((num.log2 + 1 : Nat) : Int) by push_cast; ring, zpow_natCast]
    exact_mod_cast this
  have hd1 : (2 : ℚ) ^ (den.log2 : Int) ≤ den := by
    rw [zpow_natCast]
    exact_mod_cast Nat.log2_self_le (by omega)
  have hd2 : (den : ℚ) < 2 ^ ((den.log2 : Int) + 1) := by
    have := Nat.lt_log2_self (n := den)
    rw [show (den.log2 : Int) + 1 = ((den.log2 + 1 : Nat) : Int) by push_cast; ring, zpow_natCast]
    exact_mod_cast this
  have two : (2 : ℚ) ≠ 0 := by norm_num
  obtain ⟨k, hk⟩ : ∃ k : Int, (num.log2 : Int) - den.log2 = k := ⟨_, rfl⟩
  have hup : (num : ℚ) / den < 2 ^ (k + 1) := by
    rw [div_lt_iff₀ hdq]
    calc (num : ℚ) < 2 ^ ((num.log2 : Int) + 1) := hn2
      _ = 2 ^ (k + 1) * 2 ^ (den.log2 : Int) := by rw [← zpow_add₀ two]; congr 1; omega
      _ ≤ 2 ^ (k + 1) * den := by gcongr
  have hlow : (2 : ℚ) ^ (k - 1) ≤ (num : ℚ) / den := by
    rw [le_div_iff₀ hdq]
    calc (2 : ℚ) ^ (k - 1) * den ≤ 2 ^ (k - 1) * 2 ^ ((den.log2 : Int) + 1) := by gcongr
      _ = 2 ^ (num.log2 : Int) := by rw [← zpow_add₀ two]; congr 1; omega
      _ ≤ num := hn1
  unfold ratLog2
  simp only [hk, scaleUp_le_iff hd]
  split
  · next h => exact ⟨h, hup⟩
  · next h => exact ⟨hlow, by simpa using lt_of_not_ge h⟩

/-- Rounding a quotient to nearest gives an integer at most one half away, and the even one at one half (00_scope.md R14). -/
theorem roundQuotient_spec {num den : Nat} (hd : 0 < den) :
    |((roundQuotient .nearestEven num den : Nat) : ℚ) - (num : ℚ) / den| ≤ 1 / 2 ∧
      (|((roundQuotient .nearestEven num den : Nat) : ℚ) - (num : ℚ) / den| = 1 / 2 →
        roundQuotient .nearestEven num den % 2 = 0) := by
  have hdq : (0 : ℚ) < den := by exact_mod_cast hd
  obtain ⟨q, hq⟩ : ∃ q, num / den = q := ⟨_, rfl⟩
  obtain ⟨r, hr⟩ : ∃ r, num % den = r := ⟨_, rfl⟩
  have hrlt : r < den := hr ▸ Nat.mod_lt _ hd
  have hnum : num = den * q + r := by rw [← hq, ← hr]; exact (Nat.div_add_mod num den).symm
  have hx : (num : ℚ) / den = q + r / den := by
    rw [hnum]
    push_cast
    field_simp
  have hr0 : (0 : ℚ) ≤ (r : ℚ) / den := by positivity
  simp only [roundQuotient, hq, hr, hx]
  split
  · next h =>
    have hhalf : (1 : ℚ) / 2 ≤ r / den := by
      rw [div_le_div_iff₀ (by norm_num) hdq]
      have : den ≤ 2 * r := by omega
      have : (den : ℚ) ≤ 2 * r := by exact_mod_cast this
      linarith
    have hlt1 : (r : ℚ) / den < 1 := by
      rw [div_lt_one hdq]
      exact_mod_cast hrlt
    have habs : |(((q + 1 : Nat) : ℚ)) - (q + r / den)| = 1 - r / den := by
      push_cast
      rw [abs_of_nonneg (by linarith)]
      ring
    rw [habs]
    refine ⟨by linarith, fun heq => ?_⟩
    have h2 : (r : ℚ) / den = 1 / 2 := by linarith
    rw [div_eq_div_iff (by positivity) (by norm_num)] at h2
    have : r * 2 = 1 * den := by exact_mod_cast h2
    omega
  · next h =>
    have hhalf : (r : ℚ) / den ≤ 1 / 2 := by
      rw [div_le_div_iff₀ hdq (by norm_num)]
      have : 2 * r ≤ den := by omega
      have : (2 : ℚ) * r ≤ den := by exact_mod_cast this
      linarith
    have habs : |((q : Nat) : ℚ) - (q + r / den)| = r / den := by
      rw [show ((q : Nat) : ℚ) - (q + r / den) = -(r / den) by ring, abs_neg, abs_of_nonneg hr0]
    rw [habs]
    refine ⟨hhalf, fun heq => ?_⟩
    rw [div_eq_div_iff (by positivity) (by norm_num)] at heq
    have : r * 2 = 1 * den := by exact_mod_cast heq
    omega

/-- What `roundRat` does with a positive quotient `x`: on the grid of step `2^q` on which `x` has at most 53 bits it takes a nearest multiple `m`, the even one at a tie, and gives it, or an infinity when it is above every finite value. -/
theorem roundRat_grid (neg : Bool) {num den : Nat} (hn : 0 < num) (hd : 0 < den) :
    ∃ (m : Nat) (q : Int), -1074 ≤ q ∧ m ≤ 2 ^ 53 ∧ (q = -1074 ∨ (2 : ℚ) ^ (q + 52) ≤ (num : ℚ) / den) ∧
      (num : ℚ) / den < 2 ^ (q + 53) ∧ (q = -1074 ∨ 2 ^ 52 ≤ m) ∧
      |(m : ℚ) - (num : ℚ) / den / 2 ^ q| ≤ 1 / 2 ∧
      (|(m : ℚ) - (num : ℚ) / den / 2 ^ q| = 1 / 2 → m % 2 = 0) ∧
      roundRat .nearestEven neg num den =
        if m = 2 ^ 53 then (if 971 < q + 1 then .inf neg else .fin neg (2 ^ 52) (q + 1))
        else if 971 < q then .inf neg else .fin neg m q := by
  obtain ⟨hlo, hhi⟩ := ratLog2_spec hn hd
  obtain ⟨q, hq⟩ : ∃ q, max (ratLog2 num den - 52) Fp.eMin = q := ⟨_, rfl⟩
  obtain ⟨m, hm⟩ : ∃ m, roundQuotient .nearestEven (scaleUp num (-q)) (scaleUp den q) = m := ⟨_, rfl⟩
  have hspec := roundQuotient_spec (num := scaleUp num (-q)) (scaleUp_pos hd q)
  rw [scaleUp_div, hm] at hspec
  have hqmin : -1074 ≤ q := by rw [← hq]; exact le_max_right _ _
  have hq52 : ratLog2 num den - 52 ≤ q := by rw [← hq]; exact le_max_left _ _
  have hqcase : q = -1074 ∨ q = ratLog2 num den - 52 := by
    rcases max_choice (ratLog2 num den - 52) Fp.eMin with h | h
    · exact .inr (hq.symm.trans h)
    · exact .inl (hq.symm.trans h)
  have htwo : (1 : ℚ) < 2 := by norm_num
  have hxhi : (num : ℚ) / den < 2 ^ (q + 53) :=
    lt_of_lt_of_le hhi (zpow_le_zpow_right₀ htwo.le (by omega))
  have hxlo : q = -1074 ∨ (2 : ℚ) ^ (q + 52) ≤ (num : ℚ) / den := by
    rcases hqcase with h | h
    · exact .inl h
    · exact .inr (le_of_eq_of_le (congrArg _ (by omega)) hlo)
  have hp : (0 : ℚ) < 2 ^ q := by positivity
  have hscaled : (num : ℚ) / den / 2 ^ q < 2 ^ 53 := by
    rw [div_lt_iff₀ hp]
    rw [zpow_add₀ (by norm_num : (2 : ℚ) ≠ 0)] at hxhi
    norm_num at hxhi ⊢
    linarith
  have hm53 : m ≤ 2 ^ 53 := by
    have h1 := (abs_le.1 hspec.1).2
    have h2 : (m : ℚ) < ((2 ^ 53 + 1 : Nat) : ℚ) := by push_cast; linarith
    have h3 : m < 2 ^ 53 + 1 := by exact_mod_cast h2
    omega
  have hm52 : q = -1074 ∨ 2 ^ 52 ≤ m := by
    rcases hxlo with h | h
    · exact .inl h
    · right
      have h0 : (2 : ℚ) ^ 52 ≤ (num : ℚ) / den / 2 ^ q := by
        rw [le_div_iff₀ hp]
        rw [zpow_add₀ (by norm_num : (2 : ℚ) ≠ 0)] at h
        norm_num at h ⊢
        linarith
      have h1 := (abs_le.1 hspec.1).1
      have h2 : ((2 ^ 52 - 1 : Nat) : ℚ) < (m : ℚ) := by
        rw [Nat.cast_sub (by norm_num)]
        push_cast
        linarith
      have h3 : 2 ^ 52 - 1 < m := by exact_mod_cast h2
      omega
  refine ⟨m, q, hqmin, hm53, hxlo, hxhi, hm52, hspec.1, hspec.2, ?_⟩
  have hn0 : num ≠ 0 := by omega
  rw [Fp.eMin_eq] at hq
  simp only [roundRat_eq, hn0, if_false, hq, hm, overflowed]
  by_cases h : m = 2 ^ 53
  · simp only [if_pos h]
  · simp only [if_neg h]

theorem roundRat_canonical (neg : Bool) (num : Nat) {den : Nat} (hd : 0 < den) :
    (roundRat .nearestEven neg num den).canonical = true := by
  by_cases hn : num = 0
  · simp [roundRat_eq, hn, Fp.zero_eq, Fp.canonical]
  · obtain ⟨m, q, hq, hm, -, -, hm52, -, -, hres⟩ := roundRat_grid neg (Nat.pos_of_ne_zero hn) hd
    rw [hres]
    split
    · split
      · rfl
      · simp only [Fp.canonical, Bool.or_eq_true, Bool.and_eq_true, decide_eq_true_eq]
        omega
    · split
      · rfl
      · simp only [Fp.canonical, Bool.or_eq_true, Bool.and_eq_true, decide_eq_true_eq]
        omega

theorem roundDyadic_canonical (neg : Bool) (m : Nat) (e : Int) :
    (roundDyadic neg m e).canonical = true :=
  roundRat_canonical neg _ (scaleUp_pos Nat.one_pos _)

theorem Fp.zero_canonical (neg : Bool) : (Fp.zero neg).canonical = true := by
  simp [Fp.zero_eq, Fp.canonical]

theorem Fp.round_canonical (x : Fp) : x.round.canonical = true := by
  cases x with
  | nan => rfl
  | inf _ => rfl
  | fin neg m e => exact roundDyadic_canonical neg m e

theorem Fp.mul_canonical (x y : Fp) : (x.mul y).canonical = true := Fp.round_canonical _

theorem Fp.neg_canonical {x : Fp} (h : x.canonical = true) : x.neg.canonical = true := by
  cases x <;> exact h

/-- A sum is canonical when an infinite operand's partner is. -/
theorem Fp.add_canonical (x y : Fp) : (x.add y).canonical = true := by
  cases x <;> cases y <;> simp only [Fp.add]
  all_goals first | rfl | skip
  · split <;> rfl
  · split
    · exact Fp.zero_canonical _
    · exact roundDyadic_canonical _ _ _

theorem Fp.div_canonical (x y : Fp) : (x.div y).canonical = true := by
  cases x <;> cases y <;> simp only [Fp.div]
  all_goals first | rfl | exact Fp.zero_canonical _ | skip
  split
  · split <;> rfl
  · next h => exact roundRat_canonical _ _ (scaleUp_pos (Nat.pos_of_ne_zero h) _)

theorem Fp.mulAdd_canonical (x y z : Fp) : (Fp.mulAdd x y z).canonical = true :=
  Fp.add_canonical _ _

theorem Fp.ofInt_canonical (i : Int) : (Fp.ofInt i).canonical = true := roundDyadic_canonical _ _ _

end Sys2Proof.Machine
end

