-- ==== Sys2Proof/Laws/State.lean ====
section
/-! SUPPORT. One lemma for each field and each update of State, so that no proof unfolds a record update. -/
namespace Sys2Proof.Machine

variable (s : State) (st : Status) (r : Option U64) (c : Command) (rest : List HostAction)

@[simp] theorem State.respond_frame : (s.respond st r).frame = s.frame := rfl
@[simp] theorem State.respond_host : (s.respond st r).host = s.host := rfl
@[simp] theorem State.respond_port : (s.respond st r).port = s.port := rfl
@[simp] theorem State.respond_responses :
    (s.respond st r).responses = s.responses ++ [⟨st, r⟩] := rfl
@[simp] theorem State.respond_draws : (s.respond st r).draws = s.draws + 1 := rfl

@[simp] theorem State.accept_frame : (s.accept c rest).frame = s.frame := rfl
@[simp] theorem State.accept_host : (s.accept c rest).host = rest := rfl
@[simp] theorem State.accept_port : (s.accept c rest).port = c := rfl
@[simp] theorem State.accept_responses : (s.accept c rest).responses = s.responses := rfl
@[simp] theorem State.accept_draws : (s.accept c rest).draws = s.draws := rfl

@[simp] theorem State.advance_frame : (s.advance rest).frame = s.frame := rfl
@[simp] theorem State.advance_host : (s.advance rest).host = rest := rfl
@[simp] theorem State.advance_port : (s.advance rest).port = s.port := rfl
@[simp] theorem State.advance_responses : (s.advance rest).responses = s.responses := rfl
@[simp] theorem State.advance_draws : (s.advance rest).draws = s.draws := rfl

@[simp] theorem State.issueNext_frame : (s.issueNext c).frame = s.frame := rfl
@[simp] theorem State.issueNext_host : (s.issueNext c).host = .issue c :: s.host := rfl
@[simp] theorem State.issueNext_port : (s.issueNext c).port = s.port := rfl
@[simp] theorem State.issueNext_responses : (s.issueNext c).responses = s.responses := rfl
@[simp] theorem State.issueNext_draws : (s.issueNext c).draws = s.draws := rfl

end Sys2Proof.Machine
end

