-- ==== Sys2Proof/Laws/Memory.lean ====
section
/-! SUPPORT. The frame: read after write, the canonical form and that every operation keeps it, and the frame as one number. -/
namespace Sys2Proof.Machine

theorem Memory.wfFrom_cons {lo a : Nat} {v : U8} {rest : Memory} :
    Memory.wfFrom lo ((a, v) :: rest) = true ↔
      lo ≤ a ∧ a < 8 ∧ v ≠ Memory.unlisted ∧ Memory.wfFrom (a + 1) rest = true := by
  simp [Memory.wfFrom, and_assoc]

theorem Memory.wfFrom_mono {lo lo' : Nat} {m : Memory} (h : Memory.wfFrom lo m = true)
    (hle : lo' ≤ lo) : Memory.wfFrom lo' m = true := by
  cases m with
  | nil => rfl
  | cons c rest =>
    obtain ⟨a, v⟩ := c
    rw [Memory.wfFrom_cons] at h ⊢
    exact ⟨by omega, h.2⟩

/-- Below the first listed address nothing is listed. -/
theorem Memory.byteAt_below {lo a : Nat} {m : Memory} (h : Memory.wfFrom lo m = true) (ha : a < lo) :
    m.byteAt a = Memory.unlisted := by
  induction m generalizing lo with
  | nil => rfl
  | cons c rest ih =>
    obtain ⟨b, v⟩ := c
    rw [Memory.wfFrom_cons] at h
    have hne : b ≠ a := by omega
    simp only [Memory.byteAt, hne, if_false]
    exact ih h.2.2.2 (by omega)

/-- Above address 7 nothing is listed. -/
theorem Memory.byteAt_above {lo a : Nat} {m : Memory} (h : Memory.wfFrom lo m = true) (ha : 8 ≤ a) :
    m.byteAt a = Memory.unlisted := by
  induction m generalizing lo with
  | nil => rfl
  | cons c rest ih =>
    obtain ⟨b, v⟩ := c
    rw [Memory.wfFrom_cons] at h
    have hne : b ≠ a := by omega
    simp only [Memory.byteAt, hne, if_false]
    exact ih h.2.2.2

theorem Memory.byteAt_put_from {lo : Nat} {m : Memory} (h : Memory.wfFrom lo m = true) (a : Nat) (v : U8)
    (b : Nat) : (m.put a v).byteAt b = if b = a then v else m.byteAt b := by
  induction m generalizing lo with
  | nil =>
    by_cases hv : v = Memory.unlisted
    · simp [Memory.put, Memory.byteAt, hv]
    · by_cases hb : b = a
      · simp [Memory.put, Memory.byteAt, hv, hb]
      · simp [Memory.put, Memory.byteAt, hv, hb, Ne.symm hb]
  | cons c rest ih =>
    obtain ⟨d, u⟩ := c
    rw [Memory.wfFrom_cons] at h
    have ih := ih h.2.2.2
    by_cases hda : d < a
    · simp only [Memory.put, hda, if_true, Memory.byteAt, ih]
      by_cases hdb : d = b
      · have : b ≠ a := by omega
        simp [hdb, this]
      · simp [hdb]
    · by_cases hda' : d = a
      · subst hda'
        have hnone : Memory.byteAt rest d = Memory.unlisted := Memory.byteAt_below h.2.2.2 (by omega)
        by_cases hv : v = Memory.unlisted
        · by_cases hb : b = d
          · subst hb
            simp [Memory.put, hv, hnone]
          · simp [Memory.put, Memory.byteAt, hv, hb, Ne.symm hb]
        · by_cases hb : b = d
          · simp [Memory.put, Memory.byteAt, hv, hb]
          · simp [Memory.put, Memory.byteAt, hv, hb, Ne.symm hb]
      · have hnone : Memory.byteAt ((d, u) :: rest) a = Memory.unlisted :=
          Memory.byteAt_below (lo := d) (Memory.wfFrom_cons.2 ⟨le_refl d, h.2⟩) (by omega)
        by_cases hv : v = Memory.unlisted
        · by_cases hb : b = a
          · subst hb
            simp [Memory.put, hda, hda', hv, hnone]
          · simp [Memory.put, hda, hda', hv, hb]
        · by_cases hb : b = a
          · simp [Memory.put, Memory.byteAt, hda, hda', hv, hb]
          · simp [Memory.put, Memory.byteAt, hda, hda', hv, hb, Ne.symm hb]

/-- A read after a write: the byte written at that address, the old byte everywhere else. -/
theorem Memory.byteAt_put {m : Memory} (h : m.wf = true) (a : Nat) (v : U8) (b : Nat) :
    (m.put a v).byteAt b = if b = a then v else m.byteAt b :=
  Memory.byteAt_put_from h a v b

theorem Memory.wfFrom_put {lo : Nat} {m : Memory} (h : Memory.wfFrom lo m = true) {a : Nat}
    (ha : lo ≤ a) (ha8 : a < 8) (v : U8) : Memory.wfFrom lo (m.put a v) = true := by
  induction m generalizing lo with
  | nil =>
    by_cases hv : v = Memory.unlisted
    · simp [Memory.put, Memory.wfFrom, hv]
    · simp [Memory.put, hv, Memory.wfFrom, ha, ha8]
  | cons c rest ih =>
    obtain ⟨d, u⟩ := c
    rw [Memory.wfFrom_cons] at h
    by_cases hda : d < a
    · simp only [Memory.put, hda, if_true]
      exact Memory.wfFrom_cons.2 ⟨h.1, h.2.1, h.2.2.1, ih h.2.2.2 (by omega)⟩
    · have htail : Memory.wfFrom (a + 1) (if d = a then rest else (d, u) :: rest) = true := by
        by_cases hda' : d = a
        · simpa [hda'] using hda' ▸ h.2.2.2
        · simpa [hda'] using Memory.wfFrom_cons.2 ⟨by omega, h.2⟩
      by_cases hv : v = Memory.unlisted
      · simpa [Memory.put, hda, hv] using Memory.wfFrom_mono htail (by omega)
      · simpa [Memory.put, hda, hv] using Memory.wfFrom_cons.2 ⟨ha, ha8, hv, htail⟩

/-- A write to a frame address keeps the canonical form. -/
theorem Memory.wf_put {m : Memory} (h : m.wf = true) {a : Nat} (ha : a < 8) (v : U8) :
    (m.put a v).wf = true :=
  Memory.wfFrom_put h (Nat.zero_le a) ha v

theorem Memory.eq_of_byteAt_from {lo : Nat} {m m' : Memory} (h : Memory.wfFrom lo m = true)
    (h' : Memory.wfFrom lo m' = true) (hget : ∀ a, m.byteAt a = m'.byteAt a) : m = m' := by
  induction m generalizing lo m' with
  | nil =>
    cases m' with
    | nil => rfl
    | cons c rest =>
      obtain ⟨b, v⟩ := c
      rw [Memory.wfFrom_cons] at h'
      exact absurd (by simpa [Memory.byteAt] using (hget b).symm) h'.2.2.1
  | cons c rest ih =>
    obtain ⟨a, u⟩ := c
    cases m' with
    | nil =>
      rw [Memory.wfFrom_cons] at h
      exact absurd (by simpa [Memory.byteAt] using hget a) h.2.2.1
    | cons c' rest' =>
      obtain ⟨b, v⟩ := c'
      have hc := Memory.wfFrom_cons.1 h
      have hc' := Memory.wfFrom_cons.1 h'
      have hab : a = b := by
        rcases Nat.lt_trichotomy a b with hlt | heq | hlt
        · have hnone : Memory.byteAt ((b, v) :: rest') a = Memory.unlisted :=
            Memory.byteAt_below (lo := b) (Memory.wfFrom_cons.2 ⟨le_refl b, hc'.2⟩) hlt
          exact absurd (by simpa [Memory.byteAt] using (hget a).trans hnone) hc.2.2.1
        · exact heq
        · have hnone : Memory.byteAt ((a, u) :: rest) b = Memory.unlisted :=
            Memory.byteAt_below (lo := a) (Memory.wfFrom_cons.2 ⟨le_refl a, hc.2⟩) hlt
          exact absurd (by simpa [Memory.byteAt] using (hget b).symm.trans hnone) hc'.2.2.1
      subst hab
      have huv : u = v := by simpa [Memory.byteAt] using hget a
      subst huv
      have hrest : rest = rest' := by
        refine ih hc.2.2.2 hc'.2.2.2 (fun x => ?_)
        by_cases hx : a = x
        · subst hx
          rw [Memory.byteAt_below hc.2.2.2 (by omega), Memory.byteAt_below hc'.2.2.2 (by omega)]
        · simpa [Memory.byteAt, hx] using hget x
      rw [hrest]

/-- Two canonical frames with the same eight bytes are the same list. -/
theorem Memory.eq_of_byteAt {m m' : Memory} (h : m.wf = true) (h' : m'.wf = true)
    (hget : ∀ a, a < 8 → m.byteAt a = m'.byteAt a) : m = m' := by
  refine Memory.eq_of_byteAt_from h h' (fun a => ?_)
  by_cases ha : a < 8
  · exact hget a ha
  · rw [Memory.byteAt_above h (by omega), Memory.byteAt_above h' (by omega)]

/-- Bit `p` of `FRAME64` is bit `p mod 8` of byte `p div 8` (00_scope.md R13). -/
theorem Memory.frame64_bit (m : Memory) {p : Nat} (hp : p < 64) :
    m.frame64.getLsbD p = (m.byteAt (p / 8)).getLsbD (p % 8) := by
  simp only [Memory.frame64, BitVec.getLsbD_append]
  interval_cases p <;> simp

/-- Two canonical frames with the same `FRAME64` are the same list. -/
theorem Memory.eq_of_frame64 {m m' : Memory} (h : m.wf = true) (h' : m'.wf = true)
    (heq : m.frame64 = m'.frame64) : m = m' := by
  refine Memory.eq_of_byteAt h h' (fun a ha => BitVec.eq_of_getLsbD_eq (fun i hi => ?_))
  have hp : 8 * a + i < 64 := by omega
  have := congrArg (fun v => v.getLsbD (8 * a + i)) heq
  simpa [Memory.frame64_bit _ hp, show (8 * a + i) / 8 = a by omega,
    show (8 * a + i) % 8 = i by omega] using this

theorem byteOf_bit (v : U64) (b : Nat) {i : Nat} (hi : i < 8) :
    (byteOf v b).getLsbD i = v.getLsbD (8 * b + i) := by
  simp [byteOf, hi]

/-- What writing bytes `0 .. n-1` of `v` into the empty frame leaves. -/
theorem Memory.ofFrame64_prefix (v : U64) (n : Nat) (hn : n ≤ 8) :
    Memory.wf ((List.range n).foldl (fun m b => m.put b (byteOf v b)) []) = true ∧
      ∀ a, Memory.byteAt ((List.range n).foldl (fun m b => m.put b (byteOf v b)) []) a =
        if a < n then byteOf v a else Memory.unlisted := by
  induction n with
  | zero => exact ⟨rfl, fun a => by simp [Memory.byteAt]⟩
  | succ n ih =>
    obtain ⟨hwf, hget⟩ := ih (by omega)
    rw [List.range_succ, List.foldl_append]
    refine ⟨Memory.wf_put hwf (by omega) _, fun a => ?_⟩
    simp only [List.foldl_cons, List.foldl_nil]
    rw [Memory.byteAt_put hwf, hget]
    by_cases h : a = n
    · subst h
      simp
    · simp [h, show a < n + 1 ↔ a < n by omega]

theorem Memory.wf_ofFrame64 (v : U64) : (Memory.ofFrame64 v).wf = true :=
  (Memory.ofFrame64_prefix v 8 (le_refl 8)).1

theorem Memory.byteAt_ofFrame64 (v : U64) {a : Nat} (ha : a < 8) :
    (Memory.ofFrame64 v).byteAt a = byteOf v a :=
  ((Memory.ofFrame64_prefix v 8 (le_refl 8)).2 a).trans (if_pos ha)

/-- The frame built from a number has that number as its `FRAME64`. -/
@[simp] theorem Memory.frame64_ofFrame64 (v : U64) : (Memory.ofFrame64 v).frame64 = v := by
  refine BitVec.eq_of_getLsbD_eq (fun p hp => ?_)
  rw [Memory.frame64_bit _ hp, Memory.byteAt_ofFrame64 v (by omega), byteOf_bit v _ (by omega)]
  congr 1
  omega

/-- A frame address is read. -/
theorem Memory.readByte_of_lt (m : Memory) {b : Int} (h0 : 0 ≤ b) (h8 : b < 8) :
    m.readByte b = .ok (m.byteAt b.toNat) := by
  simp [Memory.readByte, Memory.exists?, h0, h8]

/-- A frame address is written. -/
theorem Memory.writeByte_of_lt (m : Memory) {b : Int} (h0 : 0 ≤ b) (h8 : b < 8) (v : U8) :
    m.writeByte b v = .ok (m.put b.toNat v) := by
  simp [Memory.writeByte, Memory.exists?, h0, h8]

end Sys2Proof.Machine
end

