-- ==== Sys2Proof/Laws/Walk.lean ====
section
/-! SUPPORT. What the walks of 40_bitfield.md do, bit by bit: the chunk sequences, extraction, and the store. -/
namespace Sys2Proof.Machine

/-- A chunk lies in one frame byte and its bits lie in the raw value (40_bitfield.md R103). -/
def Chunk.Ok (c : Chunk) : Prop :=
  0 ≤ c.b ∧ c.b < 8 ∧ 1 ≤ c.w ∧ c.cl + c.w ≤ 8 ∧ c.rl + c.w ≤ 64

/-- The chunks tile the raw bits `rl .. rl+n-1` and put raw bit `k` at flat bit `lo + k`. -/
structure Tiles (cs : List Chunk) (lo : Int) (rl n : Nat) : Prop where
  ok    : ∀ c ∈ cs, c.Ok
  place : ∀ c ∈ cs, 8 * c.b + c.cl = lo + c.rl ∧ rl ≤ c.rl ∧ c.rl + c.w ≤ rl + n
  cover : ∀ k, rl ≤ k → k < rl + n → ∃ c ∈ cs, c.rl ≤ k ∧ k < c.rl + c.w

theorem chunksLE_tiles (fuel : Nat) (pos : Int) (rl rem : Nat) (hfuel : rem ≤ fuel)
    (h0 : 0 ≤ pos) (h64 : pos + rem ≤ 64) (hrl : rl + rem ≤ 64) :
    Tiles (chunksLE fuel pos rl rem) (pos - rl) rl rem := by
  induction fuel generalizing pos rl rem with
  | zero =>
    obtain rfl : rem = 0 := by omega
    exact ⟨by simp [chunksLE], by simp [chunksLE], fun k h1 h2 => by omega⟩
  | succ fuel ih =>
    by_cases hrem : rem = 0
    · subst hrem
      exact ⟨by simp [chunksLE], by simp [chunksLE], fun k h1 h2 => by omega⟩
    · obtain ⟨cl, hcl⟩ : ∃ cl, (pos % 8).toNat = cl := ⟨_, rfl⟩
      obtain ⟨w, hw⟩ : ∃ w, min (8 - cl) rem = w := ⟨_, rfl⟩
      have ht := ih (pos + w) (rl + w) (rem - w) (by omega) (by omega) (by omega) (by omega)
      simp only [chunksLE, hrem, if_false, hcl, hw]
      refine ⟨?_, ?_, ?_⟩
      · simp only [List.mem_cons, forall_eq_or_imp]
        exact ⟨by simp only [Chunk.Ok]; omega, ht.ok⟩
      · simp only [List.mem_cons, forall_eq_or_imp]
        refine ⟨by omega, fun c hc => ?_⟩
        have := ht.place c hc
        omega
      · intro k h1 h2
        by_cases hk : k < rl + w
        · exact ⟨_, List.mem_cons_self, h1, hk⟩
        · obtain ⟨c, hc, hck⟩ := ht.cover k (by omega) (by omega)
          exact ⟨c, List.mem_cons_of_mem _ hc, hck⟩

theorem chunksBE_tiles (fuel : Nat) (pos : Int) (rem : Nat) (hfuel : rem ≤ fuel)
    (h0 : 0 ≤ pos - rem + 1) (h64 : pos < 64) :
    Tiles (chunksBE fuel pos rem) (pos - rem + 1) 0 rem := by
  induction fuel generalizing pos rem with
  | zero =>
    obtain rfl : rem = 0 := by omega
    exact ⟨by simp [chunksBE], by simp [chunksBE], fun k h1 h2 => by omega⟩
  | succ fuel ih =>
    by_cases hrem : rem = 0
    · subst hrem
      exact ⟨by simp [chunksBE], by simp [chunksBE], fun k h1 h2 => by omega⟩
    · obtain ⟨i, hi⟩ : ∃ i, (pos % 8).toNat = i := ⟨_, rfl⟩
      obtain ⟨w, hw⟩ : ∃ w, min (i + 1) rem = w := ⟨_, rfl⟩
      have ht := ih (pos - w) (rem - w) (by omega) (by omega) (by omega)
      simp only [chunksBE, nextBE, Config.beWalk, hrem, if_false, hi, hw]
      refine ⟨?_, ?_, ?_⟩
      · simp only [List.mem_cons, forall_eq_or_imp]
        exact ⟨by simp only [Chunk.Ok]; omega, ht.ok⟩
      · simp only [List.mem_cons, forall_eq_or_imp]
        refine ⟨by omega, fun c hc => ?_⟩
        have := ht.place c hc
        omega
      · intro k h1 h2
        by_cases hk : rem - w ≤ k
        · exact ⟨_, List.mem_cons_self, hk, by dsimp only; omega⟩
        · obtain ⟨c, hc, hck⟩ := ht.cover k (by omega) (by omega)
          exact ⟨c, List.mem_cons_of_mem _ hc, hck⟩

/-- The span premise in one form for both conventions (20_memory.md R46). -/
theorem spanOK_iff {be : Bool} {sb n : Nat} :
    spanOK be sb n = true ↔ 1 ≤ n ∧ n ≤ 64 ∧ 0 ≤ spanLo be sb n ∧ spanHi be sb n < 64 := by
  have hfits : spanFits Config.beWalk be sb n =
      (decide (0 ≤ spanLo be sb n) && decide (spanHi be sb n < (64 : Nat))) := by
    cases be <;> rfl
  simp [spanOK, hfits, and_assoc]

theorem spanHi_eq (be : Bool) (sb n : Nat) : spanHi be sb n = spanLo be sb n + n - 1 := by
  cases be <;> (simp [spanHi, spanLo]; try omega)

/-- Where the span of a field that fits lies (20_memory.md R46). -/
theorem span_bounds {be : Bool} {sb n : Nat} (h : spanOK be sb n = true) :
    1 ≤ n ∧ n ≤ 64 ∧ 0 ≤ spanLo be sb n ∧ spanLo be sb n + n ≤ 64 := by
  rw [spanOK_iff, spanHi_eq] at h
  omega

/-- The chunks of a field that fits in the frame tile it from the lowest index of its span (20_memory.md R44, R45). -/
theorem chunks_tiles {be : Bool} {sb n : Nat} (h : spanOK be sb n = true) :
    Tiles (chunks be sb n) (spanLo be sb n) 0 n := by
  have hb := span_bounds h
  cases be with
  | false =>
    simp only [spanLo, Bool.false_eq_true, if_false] at hb
    simpa [chunks, spanLo] using
      chunksLE_tiles n sb 0 n (le_refl n) (by omega) (by omega) (by omega)
  | true =>
    simp only [spanLo, if_true] at hb
    simpa [chunks, spanLo] using
      chunksBE_tiles n sb n (le_refl n) (by omega) (by omega)

/-! Extraction. -/

/-- Raw bit `k` lies in the chunk. -/
def Chunk.covers (c : Chunk) (k : Nat) : Bool := decide (c.rl ≤ k) && decide (k < c.rl + c.w)

/-- The bits one step of the extraction walk brings into the accumulator. -/
theorem chunkBits_bit (m : Memory) {c : Chunk} (hc : c.Ok) {lo : Int}
    (hplace : 8 * c.b + c.cl = lo + c.rl) {k : Nat} (hk : k < 64) :
    ((((m.byteAt c.b.toNat) >>> c.cl) &&& mask 8 c.w).setWidth 64 <<< c.rl).getLsbD k =
      (c.covers k && m.frame64.getLsbD (lo + k).toNat) := by
  obtain ⟨h0, h8, hw, hcl, hrl⟩ := hc
  by_cases hlt : k < c.rl
  · simp [Chunk.covers, hk, hlt]
  · by_cases hge : c.rl + c.w ≤ k
    · have h1 : ¬ (k - c.rl < c.w) := by omega
      have h2 : ¬ (k < c.rl + c.w) := by omega
      simp [Chunk.covers, hk, hlt, h1, h2]
    · have hp : (lo + k).toNat = 8 * c.b.toNat + c.cl + (k - c.rl) := by omega
      rw [hp, Memory.frame64_bit _ (by omega),
        show (8 * c.b.toNat + c.cl + (k - c.rl)) / 8 = c.b.toNat by omega,
        show (8 * c.b.toNat + c.cl + (k - c.rl)) % 8 = c.cl + (k - c.rl) by omega]
      have h1 : k - c.rl < c.w := by omega
      have h2 : k - c.rl < 8 := by omega
      have h4 : c.rl ≤ k := by omega
      have h5 : k < c.rl + c.w := by omega
      have h6 : c.cl + (k - c.rl) < 64 := by omega
      simp [Chunk.covers, hk, hlt, h1, h2, h4, h5, h6]

/-- Extraction over chunks placed at `lo`: each covered raw bit is the frame bit at `lo + k`. -/
theorem extractWalk_bit (m : Memory) (lo : Int) (cs : List Chunk) (acc : U64)
    (hok : ∀ c ∈ cs, c.Ok) (hplace : ∀ c ∈ cs, 8 * c.b + c.cl = lo + c.rl) :
    ∃ r, extractWalk m cs acc = .ok r ∧ ∀ k, k < 64 →
      r.getLsbD k =
        (acc.getLsbD k || (cs.any (fun c => c.covers k) && m.frame64.getLsbD (lo + k).toNat)) := by
  induction cs generalizing acc with
  | nil => exact ⟨acc, rfl, fun k _ => by simp⟩
  | cons c rest ih =>
    have hc := hok c List.mem_cons_self
    obtain ⟨r, hr, hbit⟩ := ih
      (acc ||| ((((m.byteAt c.b.toNat) >>> c.cl) &&& mask 8 c.w).setWidth 64 <<< c.rl))
      (fun d hd => hok d (List.mem_cons_of_mem _ hd))
      (fun d hd => hplace d (List.mem_cons_of_mem _ hd))
    refine ⟨r, ?_, fun k hk => ?_⟩
    · simp only [extractWalk, Memory.readByte_of_lt m hc.1 hc.2.1]
      exact hr
    · rw [hbit k hk, BitVec.getLsbD_or,
        chunkBits_bit m hc (hplace c List.mem_cons_self) hk, List.any_cons]
      cases acc.getLsbD k <;> cases c.covers k <;> simp

/-- The chunks of a tiling cover exactly its raw bits. -/
theorem Tiles.any_covers {cs : List Chunk} {lo : Int} {rl n : Nat} (h : Tiles cs lo rl n) (k : Nat) :
    cs.any (fun c => c.covers k) = (decide (rl ≤ k) && decide (k < rl + n)) := by
  rw [Bool.eq_iff_iff, List.any_eq_true]
  simp only [Chunk.covers, Bool.and_eq_true, decide_eq_true_eq]
  constructor
  · rintro ⟨c, hc, h1, h2⟩
    have := h.place c hc
    omega
  · rintro ⟨h1, h2⟩
    exact h.cover k h1 h2

/-- What EXTRACT's walk, mask and sign extension give, bit by bit: below `n` the field's bits, above it the sign or zero (40_bitfield.md R104 to R107). -/
theorem extractField_bit (m : Memory) {be : Bool} (sg : Bool) {sb n : Nat}
    (h : spanOK be sb n = true) :
    ∃ r, extractField m be sg sb n = .ok r ∧ ∀ k, k < 64 →
      r.getLsbD k =
        if k < n then m.frame64.getLsbD (spanLo be sb n + k).toNat
        else (sg && m.frame64.getLsbD (spanLo be sb n + (n - 1 : Nat)).toNat) := by
  have hb := span_bounds h
  have ht := chunks_tiles h
  obtain ⟨r, hr, hbit⟩ := extractWalk_bit m (spanLo be sb n) (chunks be sb n) 0 ht.ok
    (fun c hc => (ht.place c hc).1)
  refine ⟨signStep sg n (maskTo n r), by simp only [extractField, hr], fun k hk => ?_⟩
  rw [signStep_bit hk, maskTo_bit, maskTo_bit, hbit k hk, hbit (n - 1) (by omega),
    ht.any_covers, ht.any_covers]
  have h1 : n - 1 < n := by omega
  by_cases hkn : k < n
  · have h2 : ¬ n ≤ k := by omega
    simp [hkn, h2]
  · have h2 : n ≤ k := by omega
    simp [hkn, h1, h2]

/-! The store. -/

/-- One byte of a store, bit by bit: the chunk's bits come from the value, the others stay (40_bitfield.md R113). -/
theorem storeByte_bit (v : U64) {c : Chunk} (byte : U8) {i : Nat} (hi : i < 8) :
    (storeByte v c byte).getLsbD i =
      if c.cl ≤ i ∧ i < c.cl + c.w then v.getLsbD (c.rl + (i - c.cl)) else byte.getLsbD i := by
  by_cases h1 : i < c.cl
  · have h2 : ¬ c.cl ≤ i := by omega
    simp [storeByte, hi, h1, h2]
  · by_cases h3 : i - c.cl < c.w
    · have h4 : c.cl ≤ i ∧ i < c.cl + c.w := by omega
      simp [storeByte, hi, h1, h3, h4]
    · have h4 : ¬ (c.cl ≤ i ∧ i < c.cl + c.w) := by omega
      simp [storeByte, hi, h1, h3, h4]

/-- A store over chunks placed at `lo`: each covered bit comes from the value, every other bit of the frame stays, and the form is kept. -/
theorem storeWalk_bit (v : U64) (lo : Int) (cs : List Chunk) (m : Memory) (hwf : m.wf = true)
    (hok : ∀ c ∈ cs, c.Ok) (hplace : ∀ c ∈ cs, 8 * c.b + c.cl = lo + c.rl) :
    ∃ m', storeWalk v cs m = .ok m' ∧ m'.wf = true ∧ ∀ p, p < 64 →
      m'.frame64.getLsbD p =
        if cs.any (fun c => decide (lo ≤ p) && c.covers (p - lo).toNat) then
          v.getLsbD (p - lo).toNat
        else m.frame64.getLsbD p := by
  induction cs generalizing m with
  | nil => exact ⟨m, rfl, hwf, fun p _ => by simp⟩
  | cons c rest ih =>
    have hc := hok c List.mem_cons_self
    have hp := hplace c List.mem_cons_self
    obtain ⟨h0, h8, hw, hcl, hrl⟩ := hc
    have hb8 : c.b.toNat < 8 := by omega
    obtain ⟨m', hm', hwf', hbit⟩ := ih (m.put c.b.toNat (storeByte v c (m.byteAt c.b.toNat)))
      (Memory.wf_put hwf hb8 _) (fun d hd => hok d (List.mem_cons_of_mem _ hd))
      (fun d hd => hplace d (List.mem_cons_of_mem _ hd))
    refine ⟨m', ?_, hwf', fun p hp64 => ?_⟩
    · simp only [storeWalk, Memory.readByte_of_lt m h0 h8, Memory.writeByte_of_lt m h0 h8]
      exact hm'
    · rw [hbit p hp64, List.any_cons]
      by_cases hrest : rest.any (fun c => decide (lo ≤ p) && c.covers (p - lo).toNat) = true
      · simp [hrest]
      · rw [Bool.not_eq_true] at hrest
        rw [hrest, Memory.frame64_bit _ hp64, Memory.byteAt_put hwf, Memory.frame64_bit _ hp64]
        simp only [Bool.false_eq_true, if_false, Bool.or_false]
        by_cases hbyte : p / 8 = c.b.toNat
        · rw [if_pos hbyte, storeByte_bit v _ (by omega)]
          by_cases hin : c.cl ≤ p % 8 ∧ p % 8 < c.cl + c.w
          · have hcov : (decide (lo ≤ (p : Int)) && c.covers ((p : Int) - lo).toNat) = true := by
              simp only [Chunk.covers, Bool.and_eq_true, decide_eq_true_eq]
              omega
            rw [if_pos hin, if_pos hcov]
            congr 1
            omega
          · have hcov : ¬ (decide (lo ≤ (p : Int)) && c.covers ((p : Int) - lo).toNat) = true := by
              simp only [Chunk.covers, Bool.and_eq_true, decide_eq_true_eq]
              omega
            rw [if_neg hin, if_neg hcov, hbyte]
        · have hcov : ¬ (decide (lo ≤ (p : Int)) && c.covers ((p : Int) - lo).toNat) = true := by
            simp only [Chunk.covers, Bool.and_eq_true, decide_eq_true_eq]
            omega
          rw [if_neg hbyte, if_neg hcov]

/-- What a store of a field leaves, bit by bit (40_bitfield.md R110 to R114). -/
theorem storeField_bit {m : Memory} (hwf : m.wf = true) {be : Bool} {sb n : Nat}
    (h : spanOK be sb n = true) (v : U64) :
    ∃ m', storeField m be sb n v = .ok m' ∧ m'.wf = true ∧ ∀ p, p < 64 →
      m'.frame64.getLsbD p =
        if spanLo be sb n ≤ p ∧ (p : Int) < spanLo be sb n + n then
          v.getLsbD (p - spanLo be sb n).toNat
        else m.frame64.getLsbD p := by
  have hb := span_bounds h
  have ht := chunks_tiles h
  obtain ⟨m', hm', hwf', hbit⟩ := storeWalk_bit (maskTo n v) (spanLo be sb n) (chunks be sb n) m hwf
    ht.ok (fun c hc => (ht.place c hc).1)
  refine ⟨m', hm', hwf', fun p hp => ?_⟩
  rw [hbit p hp, maskTo_bit]
  by_cases hin : spanLo be sb n ≤ p ∧ (p : Int) < spanLo be sb n + n
  · have hany : (chunks be sb n).any
        (fun c => decide (spanLo be sb n ≤ (p : Int)) && c.covers ((p : Int) - spanLo be sb n).toNat) = true := by
      simp only [hin.1, decide_true, Bool.true_and, ht.any_covers, Bool.and_eq_true, decide_eq_true_eq]
      omega
    have hlt : ((p : Int) - spanLo be sb n).toNat < n := by omega
    rw [if_pos hin, if_pos hany]
    simp [hlt]
  · have hany : ¬ (chunks be sb n).any
        (fun c => decide (spanLo be sb n ≤ (p : Int)) && c.covers ((p : Int) - spanLo be sb n).toNat) = true := by
      by_cases hle : spanLo be sb n ≤ (p : Int)
      · simp only [hle, decide_true, Bool.true_and, ht.any_covers, Bool.and_eq_true, decide_eq_true_eq]
        omega
      · simp [hle]
    rw [if_neg hin, if_neg hany]

/-- A byte no chunk names is not written (40_bitfield.md R113). -/
theorem storeWalk_other {v : U64} {cs : List Chunk} {m m' : Memory} (hwf : m.wf = true)
    (hok : ∀ c ∈ cs, c.Ok) (h : storeWalk v cs m = .ok m') {a : Nat}
    (ha : ∀ c ∈ cs, c.b ≠ a) : m'.byteAt a = m.byteAt a := by
  induction cs generalizing m with
  | nil =>
    obtain rfl : m = m' := by simpa [storeWalk] using h
    rfl
  | cons c rest ih =>
    have hc := hok c List.mem_cons_self
    have hne : a ≠ c.b.toNat := by
      have := ha c List.mem_cons_self
      have := hc.1
      omega
    simp only [storeWalk, Memory.readByte_of_lt m hc.1 hc.2.1, Memory.writeByte_of_lt m hc.1 hc.2.1] at h
    have hb8 : c.b.toNat < 8 := by
      have := hc.1
      have := hc.2.1
      omega
    rw [ih (Memory.wf_put hwf hb8 _) (fun d hd => hok d (List.mem_cons_of_mem _ hd)) h
      (fun d hd => ha d (List.mem_cons_of_mem _ hd)), Memory.byteAt_put hwf, if_neg hne]

end Sys2Proof.Machine
end

