-- ==== Sys2Proof/Laws/Ops.lean ====
section
/-! SUPPORT. Everything the shared operations of Machine/Ops.lean can do, once. -/
namespace Sys2Proof.Machine

/-- Bit `k` of the integer in a field (40_bitfield.md R109). -/
theorem fieldValue_testBit (v : U64) {lo : Int} (h0 : 0 ≤ lo) (n k : Nat) :
    (fieldValue v lo n).testBit k = (decide (k < n) && v.getLsbD (lo + k).toNat) := by
  have h : (lo + k).toNat = k + lo.toNat := by omega
  rw [fieldValue, Nat.testBit_mod_two_pow, Nat.testBit_div_two_pow, h, BitVec.testBit_toNat]

/-- The extracted raw value is the number of the field as a 64-bit two's-complement pattern (40_bitfield.md R107, R109). -/
theorem extractField_value (m : Memory) {be : Bool} (sg : Bool) {sb n : Nat}
    (h : spanOK be sb n = true) :
    extractField m be sg sb n =
      .ok (BitVec.ofInt 64 (readAs sg n (fieldValue m.frame64 (spanLo be sb n) n))) := by
  obtain ⟨r, hr, hbit⟩ := extractField_bit m sg h
  have hb := span_bounds h
  rw [hr]
  congr 1
  obtain ⟨u, hu⟩ : ∃ u, fieldValue m.frame64 (spanLo be sb n) n = u := ⟨_, rfl⟩
  have hlt : u < 2 ^ n := hu ▸ Nat.mod_lt _ (Nat.two_pow_pos _)
  have hubit : ∀ k, u.testBit k = (decide (k < n) && m.frame64.getLsbD (spanLo be sb n + k).toNat) :=
    fun k => hu ▸ fieldValue_testBit _ hb.2.2.1 n k
  have htop : u.testBit (n - 1) = decide (2 ^ (n - 1) ≤ u) := by
    have hpow : 2 ^ n = 2 * 2 ^ (n - 1) := by
      rw [← pow_succ', Nat.sub_add_cancel hb.1]
    rw [Bool.eq_iff_iff, decide_eq_true_eq]
    constructor
    · exact Nat.ge_two_pow_of_testBit
    · intro hle
      rw [Nat.testBit_eq_decide_div_mod_eq, decide_eq_true_eq]
      have h1 : u / 2 ^ (n - 1) = 1 := by
        rw [Nat.div_eq_iff (Nat.two_pow_pos _)]
        omega
      rw [h1]
  rw [hu]
  apply BitVec.eq_of_getLsbD_eq
  intro k hk
  rw [hbit k hk]
  have hn1 : n - 1 < n := by omega
  by_cases hneg : sg = true ∧ 2 ^ (n - 1) ≤ u
  · have hsign : m.frame64.getLsbD (spanLo be sb n + (n - 1 : Nat)).toNat = true := by
      have := hubit (n - 1)
      rw [htop, decide_eq_true hneg.2] at this
      simpa [hn1] using this.symm
    have hval : BitVec.ofInt 64 (readAs sg n u) = BitVec.ofNat 64 (2 ^ 64 - 2 ^ n + u) := by
      apply BitVec.eq_of_toNat_eq
      have h2 : 2 ^ n ≤ 2 ^ 64 := Nat.pow_le_pow_right (by omega) hb.2.1
      have h3 : readAs sg n u = ((2 ^ 64 - 2 ^ n + u : Nat) : Int) + (-1) * ((2 ^ 64 : Nat) : Int) := by
        rw [readAs, if_pos hneg]
        rw [show ((2 : Int) ^ n) = ((2 ^ n : Nat) : Int) by push_cast; rfl]
        generalize 2 ^ n = N at h2
        omega
      rw [BitVec.toNat_ofInt, BitVec.toNat_ofNat, h3, Int.add_mul_emod_self_right]
      rfl
    rw [hval, BitVec.getLsbD_ofNat, decide_eq_true hk, Bool.true_and]
    have h2 : 2 ^ 64 - 2 ^ n + u = 2 ^ n * (2 ^ (64 - n) - 1) + u := by
      rw [Nat.mul_sub, ← pow_add, Nat.add_sub_cancel' hb.2.1, mul_one]
    rw [h2, Nat.testBit_two_pow_mul_add _ hlt]
    by_cases hkn : k < n
    · have := hubit k
      simp only [hkn, decide_true, Bool.true_and] at this
      simp [hkn, this]
    · have h3 : k - n < 64 - n := by omega
      rw [if_neg hkn, if_neg hkn, hneg.1, hsign, Nat.testBit_two_pow_sub_one, decide_eq_true h3]
      rfl
  · have hsign : (sg && m.frame64.getLsbD (spanLo be sb n + (n - 1 : Nat)).toNat) = false := by
      have := hubit (n - 1)
      rw [htop, decide_eq_true hn1, Bool.true_and] at this
      rw [← this]
      cases sg with
      | false => rfl
      | true => simpa using hneg
    rw [readAs, if_neg hneg, hsign, BitVec.ofInt_natCast, BitVec.getLsbD_ofNat, decide_eq_true hk,
      Bool.true_and, hubit k]
    by_cases hkn : k < n <;> simp [hkn]

/-- As the model is configured, a span that leaves the frame does not stop the machine. -/
@[simp] theorem spanOverflowed_eq (t : State) : spanOverflowed t = .next t := rfl

/-- A store of a field that fits never faults. -/
theorem storeWalk_ok (v : U64) {cs : List Chunk} (hok : ∀ c ∈ cs, c.Ok) (m : Memory) :
    ∃ m', storeWalk v cs m = .ok m' := by
  induction cs generalizing m with
  | nil => exact ⟨m, rfl⟩
  | cons c rest ih =>
    have hc := hok c List.mem_cons_self
    simp only [storeWalk, Memory.readByte_of_lt m hc.1 hc.2.1, Memory.writeByte_of_lt m hc.1 hc.2.1]
    exact ih (fun d hd => hok d (List.mem_cons_of_mem _ hd)) _

/-- A reading command ends in one of three ways, all of them a next state with one more response and the same frame. -/
theorem readCommand_cases (be sg : Bool) (sb n : Nat) (f : U64 → U64) (s : State) :
    (lengthOK n = false ∧ readCommand be sg sb n f s = .next (s.respond .invalidLength none)) ∨
      (lengthOK n = true ∧ spanOK be sb n = false ∧
        readCommand be sg sb n f s = .next (s.respond .ok (some (s.draw Config.spanResult)))) ∨
      (lengthOK n = true ∧ spanOK be sb n = true ∧
        readCommand be sg sb n f s =
          .next (s.respond .ok (some (f (BitVec.ofInt 64 (s.fieldNumber be sg sb n)))))) := by
  unfold readCommand
  cases hl : lengthOK n with
  | false => exact .inl ⟨rfl, rfl⟩
  | true =>
    cases hs : spanOK be sb n with
    | false => exact .inr (.inl ⟨rfl, rfl, rfl⟩)
    | true =>
      refine .inr (.inr ⟨rfl, rfl, ?_⟩)
      simp only [extractField_value s.frame sg hs, if_true]
      rfl

/-- A writing command ends in one of three ways, all of them a next state with one more response. -/
theorem writeCommand_cases (be : Bool) (sb n : Nat) (raw : U64) (s : State) :
    (lengthOK n = false ∧ writeCommand be sb n raw s = .next (s.respond .invalidLength none)) ∨
      (lengthOK n = true ∧ spanOK be sb n = false ∧
        writeCommand be sb n raw s =
          .next ({ s with frame := Memory.ofFrame64 (s.draw Config.spanFrame) }.respond .ok none)) ∨
      (lengthOK n = true ∧ spanOK be sb n = true ∧ ∃ m, storeField s.frame be sb n raw = .ok m ∧
        writeCommand be sb n raw s = .next ({ s with frame := m }.respond .ok none)) := by
  unfold writeCommand
  cases hl : lengthOK n with
  | false => exact .inl ⟨rfl, rfl⟩
  | true =>
    cases hs : spanOK be sb n with
    | false => exact .inr (.inl ⟨rfl, rfl, rfl⟩)
    | true =>
      obtain ⟨m, hm⟩ := storeWalk_ok (maskTo n raw) (chunks_tiles hs).ok s.frame
      refine .inr (.inr ⟨rfl, rfl, m, hm, ?_⟩)
      simp only [storeField, hm, if_true]

end Sys2Proof.Machine
end

