-- ==== Sys2Proof/Laws/Exec.lean ====
section
/-! SUPPORT. Everything a command and a step can do, said once: each ends in a next state with one more response. -/
namespace Sys2Proof.Machine

/-- The shape of every answer to a command: one response, a frame, and nothing else changed. -/
structure Ends (s : State) (writes : Bool) (frame : Memory) (status : Status) (result : Option U64) : Prop where
  /-- An error changes nothing and carries no result (60_exceptions.md R186). -/
  error : status ≠ .ok → frame = s.frame ∧ result = none
  /-- A reading command leaves the frame (10_state.md R27). -/
  reads : writes = false → frame = s.frame
  /-- The canonical form is kept. -/
  wf    : s.frame.wf = true → frame.wf = true
  /-- A result comes exactly from a reading command that completes (10_state.md R30). -/
  value : result.isSome = (!writes && status == .ok)

theorem Ends.raise {s : State} {w : Bool} {st : Status} (h : st ≠ .ok) :
    Ends s w s.frame st none where
  error _ := ⟨rfl, rfl⟩
  reads _ := rfl
  wf h := h
  value := by cases w <;> simp [h]

theorem readCommand_ends (be sg : Bool) (sb n : Nat) (f : U64 → U64) (s : State) :
    ∃ frame st res, readCommand be sg sb n f s = .next (({ s with frame := frame } : State).respond st res) ∧
      Ends s false frame st res := by
  rcases readCommand_cases be sg sb n f s with ⟨-, h⟩ | ⟨-, -, h⟩ | ⟨-, -, h⟩
  · exact ⟨_, _, _, h, Ends.raise (by decide)⟩
  · exact ⟨_, _, _, h, ⟨fun h => absurd rfl h, fun _ => rfl, fun h => h, rfl⟩⟩
  · exact ⟨_, _, _, h, ⟨fun h => absurd rfl h, fun _ => rfl, fun h => h, rfl⟩⟩

theorem writeCommand_ends (be : Bool) (sb n : Nat) (raw : U64) (s : State) :
    ∃ frame st res, writeCommand be sb n raw s = .next (({ s with frame := frame } : State).respond st res) ∧
      Ends s true frame st res := by
  rcases writeCommand_cases be sb n raw s with ⟨-, h⟩ | ⟨-, -, h⟩ | ⟨-, hs, m, hm, h⟩
  · exact ⟨_, _, _, h, Ends.raise (by decide)⟩
  · exact ⟨_, _, _, h, ⟨fun h => absurd rfl h, fun h => absurd h (by decide),
      fun _ => Memory.wf_ofFrame64 _, rfl⟩⟩
  · refine ⟨_, _, _, h, ⟨fun h => absurd rfl h, fun h => absurd h (by decide), fun hwf => ?_, rfl⟩⟩
    obtain ⟨m', hm', hwf', -⟩ := storeField_bit hwf hs raw
    rw [hm] at hm'
    cases hm'
    exact hwf'

/-- Every command, in every state, ends in a next state of the shape `Ends`. -/
theorem exec_ends (i : Instr) (s : State) :
    ∃ frame st res, exec i s = .next (({ s with frame := frame } : State).respond st res) ∧
      Ends s i.writes frame st res := by
  cases i with
  | extract be sg sb n => exact readCommand_ends be sg sb n _ s
  | store be sg sb n => exact writeCommand_ends be sb n _ s
  | decodeLinear be sg sb n => exact readCommand_ends be sg sb n _ s
  | encodeLinear be sg sb n =>
    simp only [exec, execEncodeLinear]
    split
    · exact ⟨_, _, _, rfl, Ends.raise (by decide)⟩
    · exact writeCommand_ends be sb n _ s
  | decodeFixed be sg sb n fb => exact readCommand_ends be sg sb n _ s
  | encodeFixed be sg sb n fb => exact writeCommand_ends be sb n _ s

/-- Every command word, legal or not, ends in a next state with one more response. -/
theorem runCommand_ends (s : State) :
    ∃ w frame st res, runCommand s = .next (({ s with frame := frame } : State).respond st res) ∧
      Ends s w frame st res := by
  unfold runCommand
  split
  · next i _ =>
    obtain ⟨frame, st, res, h, he⟩ := exec_ends i s
    exact ⟨i.writes, frame, st, res, h, he⟩
  · exact ⟨true, _, _, _, rfl, Ends.raise (by decide)⟩

/-- A reset during a command ends in a next state that differs in the frame and the draw counter at most, and keeps the canonical form. -/
theorem resetDuringCommand_ends (s : State) :
    ∃ frame draws, resetDuringCommand s = .next { s with frame := frame, draws := draws } ∧
      (s.frame.wf = true → frame.wf = true) := by
  unfold resetDuringCommand
  split
  · exact ⟨s.frame, s.draws, rfl, fun h => h⟩
  · next i _ =>
    split
    · split
      · next hs =>
        obtain ⟨m, hm⟩ := storeWalk_ok (maskTo i.length (s.draw Config.resetField)) (chunks_tiles hs).ok s.frame
        simp only [storeField, hm]
        refine ⟨m, s.draws + 1, rfl, fun hwf => ?_⟩
        obtain ⟨m', hm', hwf', -⟩ := storeField_bit hwf hs (s.draw Config.resetField)
        rw [storeField, hm] at hm'
        cases hm'
        exact hwf'
      · exact ⟨_, s.draws + 1, rfl, fun _ => Memory.wf_ofFrame64 _⟩
    · exact ⟨s.frame, s.draws, rfl, fun h => h⟩

/-! What one step does, by the host's next action. -/

theorem step_issue {s : State} {c : Command} {rest : List HostAction} (h : s.host = .issue c :: rest) :
    step s = runCommand (s.accept c rest) := by
  simp [step, runHostAction, h]

theorem step_putFrame {s : State} {v : U64} {rest : List HostAction} (h : s.host = .putFrame v :: rest) :
    step s = hostPutFrame v (s.advance rest) := by
  simp [step, runHostAction, h]

theorem step_resetBlock {s : State} {rest : List HostAction} (h : s.host = .resetBlock :: rest) :
    step s = hostReset (s.advance rest) := by
  simp [step, runHostAction, h]

theorem step_resetDuring {s : State} {c : Command} {rest : List HostAction}
    (h : s.host = .resetDuring c :: rest) : step s = resetDuringCommand (s.accept c rest) := by
  simp [step, runHostAction, h]

theorem step_idle {s : State} (h : s.host = []) : step s = .next s := by
  simp [step, runHostAction, h]

end Sys2Proof.Machine
end

