-- ==== Sys2Proof/Laws/Field.lean ====
section
/-! SUPPORT. A field that fits, read and written, in the terms of Safety.lean: what the two command shapes do with it. -/
namespace Sys2Proof.Machine

theorem lengthOK_eq_false_iff (n : Nat) : lengthOK n = false ↔ badLength n := by
  simp only [lengthOK, badLength, Config.lenMin, Config.lenMax, Bool.and_eq_false_iff,
    decide_eq_false_iff_not]
  omega

theorem lengthOK_iff (n : Nat) : lengthOK n = true ↔ ¬ badLength n := by
  rw [← lengthOK_eq_false_iff]
  simp

theorem lengthOK_of_spanOK {be : Bool} {sb n : Nat} (h : spanOK be sb n = true) : lengthOK n = true := by
  have hb := span_bounds h
  rw [lengthOK_iff]
  unfold badLength
  omega

/-- A reading command of a field that fits (40_bitfield.md R108). -/
theorem readCommand_fits {be : Bool} (sg : Bool) {sb n : Nat} (f : U64 → U64) (s : State)
    (h : spanOK be sb n = true) :
    readCommand be sg sb n f s =
      .next (s.respond .ok (some (f (BitVec.ofInt 64 (s.fieldNumber be sg sb n))))) := by
  rcases readCommand_cases be sg sb n f s with ⟨h1, -⟩ | ⟨-, h1, -⟩ | ⟨-, -, h1⟩
  · exact absurd (lengthOK_of_spanOK h) (by simp [h1])
  · exact absurd h (by simp [h1])
  · exact h1

/-- A reading command with a bad length (40_bitfield.md R101). -/
theorem readCommand_badLength (be sg : Bool) (sb : Nat) {n : Nat} (f : U64 → U64) (s : State)
    (h : badLength n) : readCommand be sg sb n f s = .next (s.respond .invalidLength none) := by
  rcases readCommand_cases be sg sb n f s with ⟨-, h1⟩ | ⟨h1, -⟩ | ⟨h1, -⟩
  · exact h1
  all_goals exact absurd h ((lengthOK_iff _).1 h1)

/-- A writing command with a bad length (40_bitfield.md R101). -/
theorem writeCommand_badLength (be : Bool) (sb : Nat) {n : Nat} (raw : U64) (s : State)
    (h : badLength n) : writeCommand be sb n raw s = .next (s.respond .invalidLength none) := by
  rcases writeCommand_cases be sb n raw s with ⟨-, h1⟩ | ⟨h1, -⟩ | ⟨h1, -⟩
  · exact h1
  all_goals exact absurd h ((lengthOK_iff _).1 h1)

/-- `FRAME64` with a field replaced, bit by bit (40_bitfield.md R114). -/
theorem replaceField_bit (f v : U64) {be : Bool} {sb n : Nat} (h : spanOK be sb n = true) {p : Nat}
    (hp : p < 64) :
    (replaceField f (spanLo be sb n) n v).getLsbD p =
      if spanLo be sb n ≤ p ∧ (p : Int) < spanLo be sb n + n then
        v.getLsbD (p - spanLo be sb n).toNat
      else f.getLsbD p := by
  have hb := span_bounds h
  obtain ⟨lo, hlo⟩ : ∃ lo : Nat, spanLo be sb n = lo := ⟨(spanLo be sb n).toNat, by omega⟩
  rw [hlo] at *
  unfold replaceField
  simp only [Int.toNat_natCast, BitVec.getLsbD_or, BitVec.getLsbD_and, BitVec.getLsbD_not,
    BitVec.getLsbD_shiftLeft, mask_bit, hp, decide_true, Bool.true_and]
  by_cases h1 : p < lo
  · rw [if_neg (by omega)]
    simp [h1]
  · have e : ((p : Int) - lo).toNat = p - lo := by omega
    have e4 : p - lo < 64 := by omega
    rw [e]
    by_cases h2 : p - lo < n
    · rw [if_pos (by omega)]
      simp [h1, h2, e4]
    · rw [if_neg (by omega)]
      simp [h1, h2]

/-- A store is the closed form (40_bitfield.md R114). -/
theorem storeField_fits {m : Memory} (hwf : m.wf = true) {be : Bool} {sb n : Nat}
    (h : spanOK be sb n = true) (v : U64) :
    ∃ m', storeField m be sb n v = .ok m' ∧ m'.wf = true ∧
      m'.frame64 = replaceField m.frame64 (spanLo be sb n) n v := by
  obtain ⟨m', h1, h2, h3⟩ := storeField_bit hwf h v
  refine ⟨m', h1, h2, BitVec.eq_of_getLsbD_eq fun p hp => ?_⟩
  rw [h3 p hp, replaceField_bit _ _ h hp]

/-- A writing command of a field that fits (40_bitfield.md R115). -/
theorem writeCommand_fits {be : Bool} {sb n : Nat} (raw : U64) {s : State} (hs : s.inv = true)
    (h : spanOK be sb n = true) :
    ∃ m : Memory, m.wf = true ∧
      m.frame64 = replaceField s.frame.frame64 (spanLo be sb n) n raw ∧
      writeCommand be sb n raw s = .next ({ s with frame := m }.respond .ok none) := by
  rcases writeCommand_cases be sb n raw s with ⟨h1, -⟩ | ⟨-, h1, -⟩ | ⟨-, -, m, hm, h1⟩
  · exact absurd (lengthOK_of_spanOK h) (by simp [h1])
  · exact absurd h (by simp [h1])
  · obtain ⟨m', ha, hb, hc⟩ := storeField_fits (m := s.frame) hs h raw
    rw [hm] at ha
    cases ha
    exact ⟨m, hb, hc, h1⟩

/-- The field just written holds the low bits of the value. -/
theorem fieldValue_replaceField (f v : U64) {be : Bool} {sb n : Nat} (h : spanOK be sb n = true) :
    fieldValue (replaceField f (spanLo be sb n) n v) (spanLo be sb n) n = v.toNat % 2 ^ n := by
  have hb := span_bounds h
  apply Nat.eq_of_testBit_eq
  intro k
  rw [fieldValue_testBit _ hb.2.2.1, Nat.testBit_mod_two_pow]
  by_cases hk : k < n
  · rw [replaceField_bit _ _ h (by omega), if_pos (by omega)]
    congr 1
    rw [show ((((spanLo be sb n + (k : Int)).toNat : Nat) : Int) - spanLo be sb n).toNat = k by omega,
      BitVec.testBit_toNat]
  · simp [hk]

theorem fieldValue_lt (v : U64) (lo : Int) (n : Nat) : fieldValue v lo n < 2 ^ n :=
  Nat.mod_lt _ (Nat.two_pow_pos _)

/-- A signed field of `n` bits stands for a number in its range (40_bitfield.md R102). -/
theorem readAs_signed_range {n u : Nat} (hn : 1 ≤ n) (hu : u < 2 ^ n) :
    -2 ^ (n - 1) ≤ readAs true n u ∧ readAs true n u < 2 ^ (n - 1) := by
  have hp : (2 : Int) ^ n = 2 * 2 ^ (n - 1) := by rw [← pow_succ', Nat.sub_add_cancel hn]
  have hu' : (u : Int) < 2 ^ n := by exact_mod_cast hu
  have hpos : (0 : Int) < 2 ^ (n - 1) := by positivity
  unfold readAs
  split
  · next h =>
    have h2 : (2 : Int) ^ (n - 1) ≤ u := by exact_mod_cast h.2
    constructor <;> linarith
  · next h =>
    have h1 : ¬ 2 ^ (n - 1) ≤ u := fun hh => h ⟨rfl, hh⟩
    have h2 : (u : Int) < 2 ^ (n - 1) := by exact_mod_cast not_le.1 h1
    constructor <;> linarith

/-- A number in the signed range of a field is the signed reading of its 64-bit pattern. -/
theorem toInt_ofInt_of_range {n : Nat} {k : Int} (hn : n ≤ 64) (hn1 : 1 ≤ n) (h1 : -2 ^ (n - 1) ≤ k)
    (h2 : k < 2 ^ (n - 1)) : (BitVec.ofInt 64 k).toInt = k := by
  have hle : (2 : Int) ^ (n - 1) ≤ 2 ^ 63 := pow_le_pow_right₀ (by norm_num) (by omega)
  rw [BitVec.toInt_ofInt]
  apply Int.bmod_eq_of_le <;> norm_num at * <;> omega

/-- `raw2f` of the raw value of a field converts the number the field stands for (41_physical.md R141). -/
theorem raw2f_field (s : State) {be : Bool} (sg : Bool) {sb n : Nat} (h : spanOK be sb n = true) :
    raw2f (BitVec.ofInt 64 (s.fieldNumber be sg sb n)) sg = Fp.ofInt (s.fieldNumber be sg sb n) := by
  have hb := span_bounds h
  have hlt := fieldValue_lt s.frame.frame64 (spanLo be sb n) n
  cases sg with
  | true =>
    have hr := readAs_signed_range hb.1 hlt
    simp only [raw2f, if_true]
    exact congrArg Fp.ofInt (toInt_ofInt_of_range hb.2.1 hb.1 hr.1 hr.2)
  | false =>
    have h64 : (2 : Nat) ^ n ≤ 2 ^ 64 := Nat.pow_le_pow_right (by omega) hb.2.1
    simp only [raw2f, State.fieldNumber, readAs, Bool.false_eq_true, false_and, if_false,
      BitVec.ofInt_natCast, BitVec.toNat_ofNat]
    rw [Nat.mod_eq_of_lt (lt_of_lt_of_le hlt h64)]

/-- `is_zero` is true of the patterns of +0.0 and -0.0 and of no other (00_scope.md R14). -/
theorem Fp.isZero_ofBits_iff (x : F64) :
    (Fp.ofBits x).isZero = true ↔ x = 0 ∨ x = 0x8000000000000000 := by
  have hp := packBits_of_fields x
  constructor
  · intro h
    simp only [Fp.ofBits] at h
    split at h
    · split at h <;> simp [Fp.isZero] at h
    · split at h
      · next h1 h2 =>
        simp only [Fp.isZero, beq_iff_eq] at h
        rw [h2, h] at hp
        cases hs : x.getLsbD 63 <;> rw [hs] at hp <;> rw [← hp]
        · left
          decide
        · right
          decide
      · simp [Fp.isZero] at h
  · rintro (rfl | rfl) <;> decide

theorem State.factorIsZero_iff (s : State) : s.factorIsZero = true ↔ zeroFactor s.port :=
  Fp.isZero_ofBits_iff _

end Sys2Proof.Machine
end

