-- ==== Sys2Proof/Laws/PerInstr.lean ====
section
/-! SUPPORT. The per-instruction family EncodedFields: what each field of an encoded command reads as. -/
namespace Sys2Proof.Laws.EncodedFields

/-- The word of a well-formed command has its `op` number, its descriptor and its `fractionalBits` in the fields of 30_encoding.md R71, and zeros in the reserved bits. -/
def Statement (i : Instr) : Prop :=
  i.wellFormed = true →
    BitRange.rsv0.read (encode i) = 0 ∧ BitRange.rsv1.read (encode i) = 0 ∧
      BitRange.rsv2.read (encode i) = 0 ∧ BitRange.op.read (encode i) = i.op ∧
      BitRange.bigEndian.read (encode i) = i.bigEndian.toNat ∧
      BitRange.isSigned.read (encode i) = i.isSigned.toNat ∧
      BitRange.startBit.read (encode i) = i.startBit ∧ BitRange.length.read (encode i) = i.length ∧
      BitRange.fractionalBits.read (encode i) = i.fractionalBits

/-- The same for any six fields in their ranges. -/
theorem fields_read_back {op be sg sb n fb : Nat} (h1 : op < 8) (h2 : be < 2) (h3 : sg < 2) (h4 : sb < 64)
    (h5 : n < 128) (h6 : fb < 64) {w : CmdWord}
    (hw : w = BitVec.ofNat 32 (op * 2 ^ 24 + be * 2 ^ 23 + sg * 2 ^ 22 + sb * 2 ^ 16 + n * 2 ^ 8 + fb * 2 ^ 0)) :
    BitRange.rsv0.read w = 0 ∧ BitRange.rsv1.read w = 0 ∧ BitRange.rsv2.read w = 0 ∧
      BitRange.op.read w = op ∧ BitRange.bigEndian.read w = be ∧ BitRange.isSigned.read w = sg ∧
      BitRange.startBit.read w = sb ∧ BitRange.length.read w = n ∧ BitRange.fractionalBits.read w = fb := by
  have hlt : op * 2 ^ 24 + be * 2 ^ 23 + sg * 2 ^ 22 + sb * 2 ^ 16 + n * 2 ^ 8 + fb * 2 ^ 0 < 2 ^ 32 := by
    omega
  have hv : w.toNat = op * 2 ^ 24 + be * 2 ^ 23 + sg * 2 ^ 22 + sb * 2 ^ 16 + n * 2 ^ 8 + fb * 2 ^ 0 := by
    rw [hw, BitVec.toNat_ofNat, Nat.mod_eq_of_lt hlt]
  simp only [BitRange.read, BitRange.rsv0, BitRange.rsv1, BitRange.rsv2, BitRange.op, BitRange.bigEndian,
    BitRange.isSigned, BitRange.startBit, BitRange.length, BitRange.fractionalBits, hv,
    Config.startBitFieldWidth, Config.lenFieldWidth, Config.fracFieldWidth]
  refine ⟨?_, ?_, ?_, ?_, ?_, ?_, ?_, ?_, ?_⟩ <;> omega

/-- Well-formedness as bounds. -/
theorem bounds_of_wellFormed {i : Instr} (h : i.wellFormed = true) :
    i.startBit < 64 ∧ i.length < 128 ∧ i.fractionalBits < 64 := by
  simp only [Instr.wellFormed, Bool.and_eq_true, decide_eq_true_eq, and_assoc] at h
  exact h

theorem of_op {i : Instr} (hop : i.op < 8) : Statement i := fun h => by
  obtain ⟨h1, h2, h3⟩ := bounds_of_wellFormed h
  exact fields_read_back hop (Bool.toNat_lt _) (Bool.toNat_lt _) h1 h2 h3 rfl

theorem extract (be sg : Bool) (sb n : Nat) : Statement (.extract be sg sb n) :=
  of_op (by simp [Instr.op])

theorem store (be sg : Bool) (sb n : Nat) : Statement (.store be sg sb n) :=
  of_op (by simp [Instr.op])

theorem decodeLinear (be sg : Bool) (sb n : Nat) : Statement (.decodeLinear be sg sb n) :=
  of_op (by simp [Instr.op])

theorem encodeLinear (be sg : Bool) (sb n : Nat) : Statement (.encodeLinear be sg sb n) :=
  of_op (by simp [Instr.op])

theorem decodeFixed (be sg : Bool) (sb n fb : Nat) : Statement (.decodeFixed be sg sb n fb) :=
  of_op (by simp [Instr.op])

theorem encodeFixed (be sg : Bool) (sb n fb : Nat) : Statement (.encodeFixed be sg sb n fb) :=
  of_op (by simp [Instr.op])

end Sys2Proof.Laws.EncodedFields
end

