-- ==== Sys2Proof/Laws/Round.lean ====
section
/-! SUPPORT. One rounding gives the nearest binary64 value, ties to even (00_scope.md R14). -/
namespace Sys2Proof.Machine

/-- The canonical form of a finite value, as arithmetic. -/
theorem Fp.canonical_fin {neg m e} (h : (Fp.fin neg m e).canonical = true) : (m < 2^52 ∧ e = -1074) ∨ (2^52 ≤ m ∧ m < 2^53 ∧ -1074 ≤ e ∧ e ≤ 971) := by
  simp only [Fp.canonical, Bool.or_eq_true, Bool.and_eq_true, decide_eq_true_eq] at h
  tauto

/-- A natural number at most one half from `x` is a nearest integer to it, and a second one is as near only at one half. -/
theorem natCast_nearest (m : ℕ) (x : ℚ) (h : |(m:ℚ) - x| ≤ 1/2) (k : ℤ) : |(m:ℚ) - x| ≤ |(k:ℚ) - x| ∧ (|(k:ℚ) - x| = |(m:ℚ) - x| → (k:ℚ) ≠ m → |(m:ℚ) - x| = 1/2) := by
  by_cases hk : k = m
  · subst hk; simp
  · have h1 : (1:ℚ) ≤ |(k:ℚ) - m| := by
      have : (1:ℤ) ≤ |k - m| := Int.one_le_abs (sub_ne_zero.2 hk)
      exact_mod_cast this
    have h2 : |(k:ℚ) - m| ≤ |(k:ℚ) - x| + |(m:ℚ) - x| := by
      have := abs_sub_abs_le_abs_sub (k - x : ℚ) (m - x)
      calc |(k:ℚ) - m| = |(k - x) - (m - x)| := by ring_nf
        _ ≤ _ := abs_sub _ _
    constructor
    · linarith
    · intro h3 _; linarith

theorem two_pow_1024 : (2:ℚ)^1024 = 2^53 * 2^971 := by rw [← pow_add]
theorem two_pow_971 : (2:ℚ)^971 = 2 * 2^970 := by rw [pow_succ']
/-- Half a unit above the largest finite number, from where on a magnitude rounds to infinity. -/
theorem overflowBound_eq : (2:ℚ)^1024 - 2^970 = (2^53 - 1/2) * 2^(971:ℤ) := by
  rw [two_pow_1024, show ((971:ℤ)) = ((971:ℕ):ℤ) from rfl, zpow_natCast, two_pow_971]
  generalize (2:ℚ)^970 = p; ring
theorem two_pow_1023_lt_overflowBound : (2:ℚ)^(1023:ℤ) < 2^1024 - 2^970 := by
  rw [overflowBound_eq, show (1023:ℤ) = 52 + 971 from rfl, zpow_add₀ (by norm_num)]
  have : (0:ℚ) < 2^(971:ℤ) := by positivity
  apply mul_lt_mul_of_pos_right _ this
  norm_num
theorem overflowBound_le : (2:ℚ)^1024 - 2^970 ≤ 2^(1024:ℤ) := by
  rw [overflowBound_eq, show (1024:ℤ) = 53 + 971 from rfl, zpow_add₀ (by norm_num)]
  have : (0:ℚ) < 2^(971:ℤ) := by positivity
  apply mul_le_mul_of_nonneg_right _ this.le
  norm_num
/-- `roundRat` of a positive quotient is the quotient, with the sign given, correctly rounded. -/
theorem roundRat_isNearest {num den : ℕ} (hn : 0 < num) (hd : 0 < den) (neg : Bool) :
   (roundRat .nearestEven neg num den).isNearest ((if neg then -1 else 1) * ((num:ℚ)/den)) := by
  obtain ⟨m, q, hq, hm53, hlo, hhi, hm52, hab, htie, hres⟩ := roundRat_grid neg hn hd
  set x : ℚ := (num:ℚ)/den with hx
  have hxpos : 0 < x := by positivity
  have two : (2:ℚ) ≠ 0 := by norm_num
  have hq2 : (0:ℚ) < 2^q := by positivity
  set sg : ℚ := if neg then -1 else 1 with hsg
  have hsg2 : sg * sg = 1 := by rw [hsg]; split <;> norm_num
  have hsgabs : |sg| = 1 := by rw [hsg]; split <;> norm_num
  have habsv : |sg * x| = x := by rw [abs_mul, hsgabs, one_mul, abs_of_pos hxpos]
  have hdiff : ∀ y : ℚ, |y - sg * x| = |sg * y - x| := by
    intro y
    calc |y - sg * x| = |sg| * |y - sg * x| := by rw [hsgabs, one_mul]
      _ = |sg * y - x| := by rw [← abs_mul]; congr 1; linear_combination (-x) * hsg2
  -- grid distance
  have hgrid : ∀ y : ℚ, |y - x| = 2^q * |y / 2^q - x / 2^q| := by
    intro y
    rw [← abs_of_pos hq2, ← abs_mul, abs_of_pos hq2]; congr 1; field_simp
  have hval : ∀ z : ℚ, z = (m:ℚ) * 2^q → |z - x| = 2^q * |(m:ℚ) - x/2^q| := by
    rintro z rfl; rw [hgrid]; congr 2; field_simp
  -- main claim for any canonical y
  have main : ∀ w : F64, (Fp.ofBits w).finite = true → ∀ y : ℚ, y = sg * (Fp.ofBits w).toRat →
     2^q * |(m:ℚ) - x/2^q| ≤ |y - x| ∧ (|y - x| = 2^q * |(m:ℚ) - x/2^q| → y ≠ (m:ℚ)*2^q → m % 2 = 0) := by
    intro w hw y hy
    have hc := Fp.ofBits_canonical w
    cases hfw : Fp.ofBits w with
    | nan => rw [hfw] at hw; cases hw
    | inf _ => rw [hfw] at hw; cases hw
    | fin neg' m' e' =>
      rw [hfw] at hc hy
      have hcc := Fp.canonical_fin hc
      have he : -1074 ≤ e' := by omega
      have hm' : m' < 2^53 := by rcases hcc with h|h <;> omega
      -- y = ± m' 2^e'
      obtain ⟨s', hs', hyv⟩ : ∃ s' : ℤ, (s' = 1 ∨ s' = -1) ∧ y = s' * (m' * 2^e') := by
        simp only [Fp.toRat] at hy
        rw [hy, hsg]
        cases neg <;> cases neg'
        · exact ⟨1, .inl rfl, by simp⟩
        · exact ⟨-1, .inr rfl, by simp⟩
        · exact ⟨-1, .inr rfl, by simp⟩
        · exact ⟨1, .inl rfl, by simp⟩
      by_cases hge : q ≤ e'
      · obtain ⟨d, hd'⟩ := Int.eq_ofNat_of_zero_le (show 0 ≤ e' - q by omega)
        have hdiv : y / 2^q = ((s' * (m' * 2^d) : ℤ) : ℚ) := by
          rw [hyv]; push_cast
          have : (2:ℚ)^e' = 2^d * 2^q := by rw [← zpow_natCast, ← zpow_add₀ two]; congr 1; omega
          rw [this]; field_simp
        have := natCast_nearest m (x/2^q) hab (s' * (m' * 2^d))
        rw [← hdiv] at this
        rw [hgrid y]
        refine ⟨mul_le_mul_of_nonneg_left this.1 hq2.le, fun h1 h2 => htie (this.2 ?_ ?_)⟩
        · exact mul_left_cancel₀ hq2.ne' h1
        · intro h3; apply h2; rw [← h3]; field_simp
      · -- e' < q
        have hlow : (2:ℚ)^(q+52) ≤ x := by
          rcases hlo with h | h
          · omega
          · exact h
        have hylt : y < 2^(q+52) := by
          have : (m':ℚ) < 2^53 := by exact_mod_cast hm'
          have h1 : (m':ℚ) * 2^e' < 2^53 * 2^e' := by gcongr
          have h2 : (2:ℚ)^53 * 2^e' ≤ 2^(q+52) := by
            rw [← zpow_natCast, ← zpow_add₀ two]
            apply zpow_le_zpow_right₀ (by norm_num); push_cast; omega
          have h3 : y ≤ m' * 2^e' := by
            rw [hyv]
            have : (0:ℚ) ≤ m' * 2^e' := by positivity
            rcases hs' with rfl|rfl <;> push_cast <;> linarith
          linarith
        have hint := (natCast_nearest m (x/2^q) hab (2^52)).1
        have hg : |(2:ℚ)^(q+52) - x| = 2^q * |((2^52:ℤ):ℚ) - x/2^q| := by
          rw [hgrid]; congr 3; rw [zpow_add₀ two]; push_cast; field_simp
        have h1 : 2^q * |(m:ℚ) - x/2^q| ≤ |(2:ℚ)^(q+52) - x| := by rw [hg]; exact mul_le_mul_of_nonneg_left hint hq2.le
        have h2 : |(2:ℚ)^(q+52) - x| < |y - x| := by
          rw [abs_sub_comm, abs_of_nonneg (by linarith), abs_sub_comm y, abs_of_pos (by linarith)]; linarith
        exact ⟨by linarith, fun h3 => by linarith⟩
  -- the result is the value of a pattern
  have hcan := roundRat_canonical neg num hd
  -- result
  have hfin : ∀ (m2 : ℕ) (e2 : ℤ), (m2:ℚ) * 2^e2 = (m:ℚ) * 2^q → (m2 % 2 = 0 ∨ m2 = m) → x < 2^1024 - 2^970 →
      (Fp.fin neg m2 e2).canonical = true → (Fp.fin neg m2 e2).isNearest (sg * x) := by
    intro m2 e2 hv hev hlt hc
    refine ⟨Fp.exists_bits hc (by simp), by rw [habsv]; exact hlt, fun w hw => ?_⟩
    have hz : (Fp.fin neg m2 e2).toRat = sg * ((m:ℚ) * 2^q) := by
      simp only [Fp.toRat]; rw [mul_assoc, hv]
    have hzd : |(Fp.fin neg m2 e2).toRat - sg * x| = 2^q * |(m:ℚ) - x/2^q| := by
      rw [hdiff, hz, ← mul_assoc, hsg2, one_mul]; exact hval _ rfl
    have := main w hw _ rfl
    rw [hzd, hdiff]
    refine ⟨this.1, fun h1 h2 => ?_⟩
    have h3 := this.2 h1 (fun h4 => h2 (by rw [hz, ← h4, ← mul_assoc, hsg2, one_mul]))
    rcases hev with h|h
    · exact h
    · rw [h]; exact h3
  have hinf : 2^1024 - 2^970 ≤ x → (Fp.inf neg).isNearest (sg * x) := by
    intro h
    refine ⟨Fp.exists_bits (x := .inf neg) rfl (by simp), by rw [habsv]; exact h, ?_⟩
    rw [hsg]; cases neg <;> simp
    · exact hxpos.le
    · exact hxpos
  have habl := abs_le.1 hab
  rw [hres] at hcan ⊢
  split at hcan
  · next h53 =>
    rw [if_pos h53]
    have hxl : (2^53 - 1/2) * 2^q ≤ x := by
      have : (2:ℚ)^53 - 1/2 ≤ x/2^q := by rw [h53] at habl; push_cast at habl; linarith
      rwa [le_div_iff₀ hq2] at this
    split at hcan
    · next h =>
      rw [if_pos h]
      apply hinf; rw [overflowBound_eq]
      calc ((2:ℚ)^53 - 1/2) * 2^(971:ℤ) ≤ (2^53 - 1/2) * 2^q := by
            have : (2:ℚ)^(971:ℤ) ≤ 2^q := zpow_le_zpow_right₀ (by norm_num) (by omega)
            gcongr
        _ ≤ x := hxl
    · next h =>
      rw [if_neg h]
      apply hfin
      · rw [h53, zpow_add₀ two]; push_cast; ring
      · left; norm_num
      · have h2 : x < 2^(q+53) := hhi
        have h3 : (2:ℚ)^(q+53) ≤ 2^(1023:ℤ) := zpow_le_zpow_right₀ (by norm_num) (by omega)
        exact h2.trans_le h3 |>.trans two_pow_1023_lt_overflowBound
      · exact hcan
  · next h53 =>
    rw [if_neg h53]
    split at hcan
    · next h =>
      rw [if_pos h]
      apply hinf
      have h52 : 2^52 ≤ m := by rcases hm52 with h'|h'; omega; exact h'
      have : (2:ℚ)^(q+52) ≤ x := by rcases hlo with h'|h'; omega; exact h'
      have h3 : (2:ℚ)^(1024:ℤ) ≤ 2^(q+52) := zpow_le_zpow_right₀ (by norm_num) (by omega)
      exact overflowBound_le.trans (h3.trans this)
    · next h =>
      rw [if_neg h]
      refine hfin _ _ rfl (.inr rfl) ?_ hcan
      rw [overflowBound_eq]
      have hm1 : m ≤ 2^53 - 1 := by omega
      have hmq : (m:ℚ) ≤ 2^53 - 1 := by
        have : (m:ℚ) ≤ ((2^53-1 : ℕ):ℚ) := by exact_mod_cast hm1
        push_cast [Nat.cast_sub] at this; norm_num at this ⊢; exact this
      have hxq : x ≤ (2^53 - 1/2) * 2^q := by
        have : x/2^q ≤ 2^53 - 1/2 := by linarith
        rwa [div_le_iff₀ hq2] at this
      by_cases h971 : q = 971
      · -- strict: tie would make m even i.e. x/2^q = 2^53-1/2 forces m = 2^53-1 odd
        rcases hxq.lt_or_eq with hlt | heq
        · rw [h971] at hlt; exact hlt
        · exfalso
          have hxe : x/2^q = 2^53 - 1/2 := by rw [heq]; field_simp
          have hmm : (m:ℚ) = 2^53 - 1 := by rw [hxe] at habl; linarith
          have : |(m:ℚ) - x/2^q| = 1/2 := by rw [hxe, hmm]; norm_num
          have he := htie this
          have : m = 2^53 - 1 := by
            have : ((m:ℕ):ℚ) = ((2^53-1 : ℕ):ℚ) := by rw [hmm]; norm_num
            exact_mod_cast this
          rw [this] at he; norm_num at he
      · have : (2:ℚ)^q < 2^(971:ℤ) := zpow_lt_zpow_right₀ (by norm_num) (by omega)
        calc x ≤ (2^53 - 1/2) * 2^q := hxq
          _ < (2^53 - 1/2) * 2^(971:ℤ) := mul_lt_mul_of_pos_left this (by norm_num)

/-- A zero of either sign is 0 correctly rounded. -/
theorem Fp.zero_isNearest (neg : Bool) : (Fp.zero neg).isNearest 0 := by
  refine ⟨Fp.exists_bits (Fp.zero_canonical neg) (by simp [Fp.zero]), by rw [abs_zero]; exact lt_trans (by positivity) two_pow_1023_lt_overflowBound, fun w _ => ?_⟩
  have : (Fp.fin neg 0 Fp.eMin).toRat = 0 := by simp [Fp.toRat]
  rw [this]; simp

end Sys2Proof.Machine
end

