-- ==== Sys2Proof/Tests/Slice0.lean ====
section
/-! SUPPORT. The model's own tests: ill-formed terms, words written out from 30_encoding.md R71, one-step vectors of 95_test_vectors.md, and a witness for the hypotheses of each statement. -/
namespace Sys2Proof.Tests
open Sys2Proof Sys2Proof.Machine

/-! ### Well-formedness: a term each check refuses. -/

theorem test_startBit_64_refused : (Instr.extract false false 64 8).wellFormed = false := by decide
theorem test_length_128_refused : (Instr.store true false 0 128).wellFormed = false := by decide
theorem test_fractionalBits_64_refused : (Instr.decodeFixed false true 0 8 64).wellFormed = false := by
  decide
theorem test_largest_fields_wellFormed : (Instr.encodeFixed true true 63 127 63).wellFormed = true := by
  decide

/-! ### Decoding: words written out field by field, `rsv0 op be sg startBit rsv1 length rsv2 fractionalBits` (30_encoding.md R71). -/

/-- 95_test_vectors.md X15. -/
theorem test_decode_extract :
    decode (0b00000#5 ++ 0b000#3 ++ 1#1 ++ 1#1 ++ 0b010111#6 ++ 0#1 ++ 0b0001100#7 ++ 0b00#2 ++ 0b000000#6) =
      .ok (.extract true true 23 12) := by decide
/-- 95_test_vectors.md S5a. -/
theorem test_decode_store :
    decode (0b00000#5 ++ 0b001#3 ++ 0#1 ++ 0#1 ++ 0b000000#6 ++ 0#1 ++ 0b0010000#7 ++ 0b00#2 ++ 0b000000#6) =
      .ok (.store false false 0 16) := by decide
/-- 95_test_vectors.md L-D12. -/
theorem test_decode_decodeLinear :
    decode (0b00000#5 ++ 0b010#3 ++ 1#1 ++ 1#1 ++ 0b001111#6 ++ 0#1 ++ 0b0010000#7 ++ 0b00#2 ++ 0b000000#6) =
      .ok (.decodeLinear true true 15 16) := by decide
/-- 95_test_vectors.md L-E10. -/
theorem test_decode_encodeLinear :
    decode (0b00000#5 ++ 0b011#3 ++ 1#1 ++ 0#1 ++ 0b010111#6 ++ 0#1 ++ 0b0001100#7 ++ 0b00#2 ++ 0b000000#6) =
      .ok (.encodeLinear true false 23 12) := by decide
/-- 95_test_vectors.md Q-D12. -/
theorem test_decode_decodeFixed :
    decode (0b00000#5 ++ 0b100#3 ++ 1#1 ++ 1#1 ++ 0b001111#6 ++ 0#1 ++ 0b0000100#7 ++ 0b00#2 ++ 0b000011#6) =
      .ok (.decodeFixed true true 15 4 3) := by decide
/-- 95_test_vectors.md Q-E7. -/
theorem test_decode_encodeFixed :
    decode (0b00000#5 ++ 0b101#3 ++ 0#1 ++ 0#1 ++ 0b001000#6 ++ 0#1 ++ 0b0001000#7 ++ 0b00#2 ++ 0b000100#6) =
      .ok (.encodeFixed false false 8 8 4) := by decide
/-- 95_test_vectors.md Z1 to Z11: each reason a word is illegal. -/
theorem test_decode_illegal :
    decode 0x06000800 = .error .reservedOp ∧ decode 0x07000800 = .error .reservedOp ∧
      decode 0x08000800 = .error .rsv0 ∧ decode 0x80000800 = .error .rsv0 ∧
      decode 0x00008800 = .error .rsv1 ∧ decode 0x04000840 = .error .rsv2 ∧
      decode 0x04000880 = .error .rsv2 ∧ decode 0x00000801 = .error .fractionalBits ∧
      decode 0x03000802 = .error .fractionalBits := by decide
/-- The encoder's word of 95_test_vectors.md Q-E7. -/
theorem test_encode_encodeFixed : encode (.encodeFixed false false 8 8 4) = 0x05080804 := by decide
theorem test_decodeTableWord : decodeTableWord 32 0x03970C00 = some (.encodeLinear true false 23 12) := by
  decide
/-- The example of 30_encoding.md R79, the operand as a pattern. -/
theorem test_render_store :
    (Instr.store false false 0 16).render ⟨0x01001000, 0x1234, 0, 0⟩ =
      "STORE.LE.U 0, 16, value=0x0000000000001234" := by decide

/-! ### One step on a small state. Frames are written as FRAME64, so byte 7 comes first. -/

/-- The host has this frame and is about to issue this command. -/
def begins (frame64 : U64) (c : Command) : State :=
  { State.reset with frame := Memory.ofFrame64 frame64, host := [.issue c] }

/-- Whether the answer is a next state with the property. -/
def answers (a : Answer) (p : State → Bool) : Bool :=
  match a with
  | .next t => p t
  | _ => false

theorem exists_next_of_answers {a : Answer} {p : State → Bool} (h : answers a p = true) :
    ∃ t, a = .next t ∧ p t = true := by
  cases a with
  | next t => exact ⟨t, rfl, h⟩
  | fault _ => cases h
  | refused _ => cases h

/-- The step leaves this frame and its one response is this. -/
def gives (s : State) (frame64 : U64) (status : Status) (result : Option U64) : Bool :=
  answers (step s) fun t => t.frame == Memory.ofFrame64 frame64 && t.responses == [⟨status, result⟩]

/-- 95_test_vectors.md X18. -/
theorem test_extract_signed_bigEndian :
    gives (begins 0xEFCDAB8967452301 ⟨0x00FF0C00, 0, 0, 0⟩) 0xEFCDAB8967452301 .ok
      (some 0xFFFFFFFFFFFFFEFC) = true := by decide
/-- 95_test_vectors.md X29: five chunks. -/
theorem test_extract_five_chunks :
    gives (begins 0xEFCDAB8967452301 ⟨0x00051E00, 0, 0, 0⟩) 0xEFCDAB8967452301 .ok
      (some 0x0B3A2918) = true := by decide
/-- 95_test_vectors.md T9: big-endian on the sentinel, the value's high bits ignored. -/
theorem test_store_bigEndian_sentinel :
    gives (begins 0xFFFFFFFFFFFFFFFF ⟨0x01970C00, 0xF9C, 0, 0⟩) 0xFFFFFFFFFFF9CFFF .ok none = true := by
  decide
/-- 95_test_vectors.md S5b, corrected. -/
theorem test_store_bigEndian_crosses_down :
    gives (begins 0 ⟨0x018F1000, 0x1234, 0, 0⟩) 0x1234 .ok none = true := by decide
/-- 95_test_vectors.md L-D12. -/
theorem test_decodeLinear_signed :
    gives (begins 0x8000 ⟨0x02CF1000, 0, 0x3FD0000000000000, 0x4024000000000000⟩) 0x8000 .ok
      (some 0xC0BFF60000000000) = true := by decide
/-- 95_test_vectors.md L-D6: the product is rounded. -/
theorem test_decodeLinear_rounds :
    gives (begins 0x03 ⟨0x02000800, 0, 0x3FB999999999999A, 0⟩) 0x03 .ok
      (some 0x3FD3333333333334) = true := by decide +kernel
/-- 95_test_vectors.md L-E2: truncation toward zero. -/
theorem test_encodeLinear_truncates :
    gives (begins 0 ⟨0x03400800, 0xC029666666666666, 0x3FE0000000000000, 0⟩) 0xE7 .ok none = true := by
  decide +kernel
/-- 95_test_vectors.md Z17: a zero factor comes before a bad length. -/
theorem test_encodeLinear_zero_factor_first :
    gives (begins 0xAAAAAAAAAAAAAAAA ⟨0x03004100, 0, 0x8000000000000000, 0⟩) 0xAAAAAAAAAAAAAAAA
      .divisionByZero none = true := by decide
/-- 95_test_vectors.md Q-D11: a full-width field read unsigned. -/
theorem test_decodeFixed_unsigned_64 :
    gives (begins 0x8000000000000000 ⟨0x0400403F, 0, 0, 0⟩) 0x8000000000000000 .ok
      (some 0x3FF0000000000000) = true := by decide
/-- 95_test_vectors.md Q-E12: past the signed range the integer wraps. -/
theorem test_encodeFixed_wraps :
    gives (begins 0 ⟨0x0500403F, 0x3FF0000000000000, 0, 0⟩) 0x8000000000000000 .ok none = true := by
  decide
/-- 95_test_vectors.md Q-E2. -/
theorem test_encodeFixed_negative :
    gives (begins 0 ⟨0x05400802, 0xBFD3333333333333, 0, 0⟩) 0xFF .ok none = true := by decide
/-- 95_test_vectors.md Z10: legality comes before the length. -/
theorem test_illegal_before_length :
    gives (begins 0xAAAAAAAAAAAAAAAA ⟨0x06000000, 0, 0, 0⟩) 0xAAAAAAAAAAAAAAAA .illegalCommand none =
      true := by decide
/-- The first step after a word is placed runs it. -/
theorem test_withFetchWord :
    gives (State.reset.withFetchWord 32 0x00000100) 0 .ok (some 0) = true := by decide

/-! ### Witnesses: for each statement, in the order of OBLIGATIONS.json, states and operands that meet its hypotheses. A statement without hypotheses has none. -/

theorem witness_DecodeOfEncode : (Instr.encodeFixed true true 63 127 63).wellFormed = true := by decide
theorem witness_EncodeOfDecode : decode 0x057F7F3F = .ok (.encodeFixed false true 63 127 63) := by decide
/-- Each condition of the statement, and none of them. -/
theorem witness_IllegalWordsAreThese :
    (∃ e, decode 0x08000000 = .error e) ∧ (∃ e, decode 0x00008000 = .error e) ∧
      (∃ e, decode 0x00000040 = .error e) ∧ (∃ e, decode 0x06000000 = .error e) ∧
      (∃ e, decode 0x03000001 = .error e) ∧ ¬ ∃ e, decode 0x0400003F = .error e := by
  refine ⟨⟨.rsv0, by decide⟩, ⟨.rsv1, by decide⟩, ⟨.rsv2, by decide⟩, ⟨.reservedOp, by decide⟩,
    ⟨.fractionalBits, by decide⟩, ?_⟩
  rintro ⟨e, he⟩
  have h : decode 0x0400003F = .ok (.decodeFixed false false 0 0 63) := by decide
  rw [h] at he
  cases he
/-- A word a row selects, and one that none does. -/
theorem witness_MaskAndMatchRows :
    (∃ row ∈ opcodeRows, row.selects 0x05FF7F3F = true) ∧
      ∀ row ∈ opcodeRows, row.selects 0x00000001 = false := by decide
theorem witness_FieldsAsTheyStand : decode 0x00FF7F00 = .ok (.extract true true 63 127) := by decide
theorem witness_StepRunsDecodedCommand :
    (begins 1 ⟨0x00000100, 0, 0, 0⟩).host = .issue ⟨0x00000100, 0, 0, 0⟩ :: [] ∧
      decode 0x00000100 = .ok (.extract false false 0 1) := by decide
theorem witness_FetchWordRunsNext : (Instr.decodeFixed false false 0 0 63).wellFormed = true := by decide
/-- The addresses next to the frame. -/
theorem witness_StepAlwaysAnswersNext : ¬ ((0 : Int) ≤ -1 ∧ (-1 : Int) < 8) ∧ ¬ ((0 : Int) ≤ 8 ∧ (8 : Int) < 8) := by
  decide
theorem witness_StepKeepsFrameCanonical :
    ∃ t, step (begins 5 ⟨0x01000800, 0, 0, 0⟩) = .next t ∧ (begins 5 ⟨0x01000800, 0, 0, 0⟩).inv = true := by
  obtain ⟨t, h, -⟩ := exists_next_of_answers (a := step (begins 5 ⟨0x01000800, 0, 0, 0⟩)) (p := fun _ => true)
    (by decide)
  exact ⟨t, h, by decide⟩
/-- An idle state that is not the one after reset. -/
theorem witness_ResetIsIdle :
    let s := { begins 5 ⟨0, 0, 0, 0⟩ with host := [], draws := 3 }
    s.host = [] ∧ s ≠ State.reset := by decide
theorem witness_BlockResetChangesNothing :
    ({ State.reset with host := [.resetBlock] } : State).host = .resetBlock :: [] := by decide
/-- A store of the top nibble reset on its way, and a bit it spares; a reading command, a bad length and a zero factor. -/
theorem witness_ResetDuringCommandSparesTheRest :
    let s := { State.reset with host := [.resetDuring ⟨0x013C0400, 0, 0, 0⟩] }
    s.inv = true ∧ s.host = .resetDuring ⟨0x013C0400, 0, 0, 0⟩ :: [] ∧ decode 0x06000000 = .error .reservedOp ∧
      decode 0x013C0400 = .ok (.store false false 60 4) ∧ spanPremise (.store false false 60 4) = true ∧
      (59 : Int) < spanLo false 60 4 ∧ (Instr.extract false false 0 8).writes = false ∧ badLength 65 ∧
      (Instr.encodeLinear false false 0 8).op = 3 ∧ zeroFactor ⟨0x03000800, 0, 0, 0⟩ := by
  unfold badLength zeroFactor
  decide
theorem witness_HostReplacesFrame :
    ({ State.reset with host := [.putFrame 7] } : State).host = .putFrame 7 :: [] := by decide
/-- A command with a reset and another command after it. -/
theorem witness_RunEndsWithEveryCommandAnswered :
    ({ State.reset with host := [.issue ⟨0, 0, 0, 0⟩, .resetBlock, .issue ⟨0x00000800, 0, 0, 0⟩] } : State).host =
      .issue ⟨0, 0, 0, 0⟩ :: [.resetBlock, .issue ⟨0x00000800, 0, 0, 0⟩] := by decide
/-- Two states with one frame and the same command, but other responses before it and another port. -/
theorem witness_NoStateSurvivesACommand :
    let s := begins 9 ⟨0x00000800, 0, 0, 0⟩
    let s' := { s with port := ⟨1, 2, 3, 4⟩, responses := [⟨.ok, none⟩] }
    s.frame = s'.frame ∧ s.draws = s'.draws ∧ s ≠ s' ∧ (∃ t, step s = .next t ∧ true = true) ∧
      ∃ t, step s' = .next t ∧ true = true :=
  ⟨by decide, by decide, by decide, exists_next_of_answers (p := fun _ => true) (by decide),
    exists_next_of_answers (p := fun _ => true) (by decide)⟩
/-- One command of each of the three kinds, and states that differ in the draw counter. -/
theorem witness_FittingFieldsDrawNothing :
    let s := begins 9 ⟨0x00000800, 0, 0, 0⟩
    let s' := { s with draws := 5 }
    decode 0x00000800 = .ok (.extract false false 0 8) ∧ spanPremise (.extract false false 0 8) = true ∧
      decode 0x01000800 = .ok (.store false false 0 8) ∧ spanPremise (.store false false 0 8) = true ∧
      decode 0x0400083F = .ok (.decodeFixed false false 0 8 63) ∧
      spanPremise (.decodeFixed false false 0 8 63) = true ∧ s.frame = s'.frame ∧
      (∃ t, step s = .next t ∧ true = true) ∧ ∃ t, step s' = .next t ∧ true = true :=
  ⟨by decide, by decide, by decide, by decide, by decide, by decide, by decide,
    exists_next_of_answers (p := fun _ => true) (by decide),
    exists_next_of_answers (p := fun _ => true) (by decide)⟩
theorem witness_ByteReadAfterWrite :
    (Memory.ofFrame64 0x0100000000000000).wf = true ∧ (0 : Int) ≤ 0 ∧ (7 : Int) < 8 := by decide
theorem witness_IllegalWordAnswered :
    decode 0x06000000 = .error .reservedOp ∧
      (begins 0 ⟨0x06000000, 0, 0, 0⟩).host = .issue ⟨0x06000000, 0, 0, 0⟩ :: [] ∧
      decode 0x00000800 = .ok (.extract false false 0 8) ∧
      ∃ t, step (begins 0 ⟨0x00000800, 0, 0, 0⟩) = .next t ∧ (t.responses == [] ++ [⟨.ok, some 0⟩]) = true :=
  ⟨by decide, by decide, by decide,
    exists_next_of_answers (p := fun t => t.responses == [] ++ [⟨.ok, some 0⟩]) (by decide)⟩
/-- A command for each of the four answers. -/
theorem witness_StatusIsFirstThatApplies :
    decode 0x06000000 = .error .reservedOp ∧
      (decode 0x03004100 = .ok (.encodeLinear false false 0 65) ∧ zeroFactor ⟨0x03004100, 0, 0, 0⟩) ∧
      (badLength 0 ∧ badLength 65 ∧ decode 0x00000000 = .ok (.extract false false 0 0)) ∧
      (¬ badLength 1 ∧ ¬ badLength 64 ∧ ¬ zeroFactor ⟨0x03004000, 0, 1, 0⟩) := by
  unfold badLength zeroFactor
  decide
/-- Both patterns of zero, and a step that answers so. -/
theorem witness_DivisionByZeroExactlyWhen :
    zeroFactor ⟨0, 0, 0, 0⟩ ∧ zeroFactor ⟨0, 0, 0x8000000000000000, 0⟩ ∧
      ∃ t, exec (.encodeLinear false false 0 8) State.reset = .next t ∧
        (t.responses == [] ++ [⟨.divisionByZero, none⟩]) = true :=
  ⟨.inl rfl, .inr rfl,
    exists_next_of_answers (p := fun t => t.responses == [] ++ [⟨.divisionByZero, none⟩]) (by decide)⟩
/-- The lengths next to the valid ones; ENCODE_LINEAR is among the commands when its factor is not zero. -/
theorem witness_InvalidLengthRejected :
    badLength (Instr.store false false 0 0).length ∧ badLength (Instr.encodeLinear false false 0 65).length ∧
      ¬ ((Instr.store false false 0 0).op = 3 ∧ zeroFactor ⟨0, 0, 0, 0⟩) ∧
      ¬ ((Instr.encodeLinear false false 0 65).op = 3 ∧ zeroFactor ⟨0, 0, 1, 0⟩) ∧
      ∃ t, exec (.store false false 0 65) State.reset = .next t ∧
        (t.responses == [] ++ [⟨.invalidLength, none⟩]) = true := by
  unfold badLength zeroFactor
  exact ⟨by decide, by decide, by decide, by decide,
    exists_next_of_answers (p := fun t => t.responses == [] ++ [⟨.invalidLength, none⟩]) (by decide)⟩
theorem witness_NoErrorChangesTheFrame :
    ∃ t, step (begins 3 ⟨0x01000000, 5, 0, 0⟩) = .next t ∧
      (t.responses == [] ++ [⟨.invalidLength, none⟩]) = true ∧ Status.invalidLength ≠ .ok := by
  obtain ⟨t, h, hp⟩ := exists_next_of_answers (a := step (begins 3 ⟨0x01000000, 5, 0, 0⟩))
    (p := fun t => t.responses == [] ++ [⟨.invalidLength, none⟩]) (by decide)
  exact ⟨t, h, hp, by decide⟩
/-- 95_test_vectors.md Z12 and the EXTRACT after it. -/
theorem witness_ErrorsDoNotLatch :
    let s := { begins 0xAA ⟨0, 0, 0, 0⟩ with host := [.issue ⟨0, 0, 0, 0⟩, .issue ⟨0x00000800, 0, 0, 0⟩] }
    ∃ t, step s = .next t ∧
      (t.responses == [⟨.invalidLength, none⟩] &&
        answers (step t) (fun u => u.responses == [⟨.invalidLength, none⟩, ⟨.ok, some 0xAA⟩])) = true :=
  exists_next_of_answers (p := fun t => t.responses == [⟨.invalidLength, none⟩] &&
    answers (step t) (fun u => u.responses == [⟨.invalidLength, none⟩, ⟨.ok, some 0xAA⟩])) (by decide)
/-- The span premise at its edges, both conventions, and just past them (95_test_vectors.md T18, T19 and section 2.9). -/
theorem witness_spanOK :
    spanOK false 60 4 = true ∧ spanOK true 3 4 = true ∧ spanOK false 0 64 = true ∧ spanOK true 63 64 = true ∧
      spanOK false 60 8 = false ∧ spanOK true 1 4 = false ∧ spanOK false 63 2 = false ∧
      spanOK true 0 64 = false := by decide
theorem witness_SpanPremiseByConvention : (0 : Nat) < 64 ∧ (63 : Nat) < 64 := by decide
theorem witness_WalkVisitsTheSpan : spanOK true 63 64 = true ∧ spanOK false 7 2 = true := by decide
theorem witness_ExtractAnswersTheField : spanOK true 63 64 = true ∧ badLength 0 ∧ badLength 65 := by
  unfold badLength
  decide
theorem witness_FieldBitsInFrameBytes : spanOK true 63 64 = true ∧ spanOK false 63 1 = true := by decide
theorem witness_SignExtensionGivesTheNumber : spanOK true 3 4 = true ∧ spanOK false 0 64 = true := by decide
/-- One command of each reading kind. -/
theorem witness_ReadingCommandsFrame :
    ((Instr.extract false false 0 8).writes = false ∧
        ∃ t, exec (.extract false false 0 8) State.reset = .next t ∧ true = true) ∧
      ((Instr.decodeLinear false false 0 8).writes = false ∧
        ∃ t, exec (.decodeLinear false false 0 8) State.reset = .next t ∧ true = true) ∧
      ((Instr.decodeFixed false false 0 8 2).writes = false ∧
        ∃ t, exec (.decodeFixed false false 0 8 2) State.reset = .next t ∧ true = true) :=
  ⟨⟨by decide, exists_next_of_answers (p := fun _ => true) (by decide)⟩,
    ⟨by decide, exists_next_of_answers (p := fun _ => true) (by decide)⟩,
    ⟨by decide, exists_next_of_answers (p := fun _ => true) (by decide)⟩⟩
/-- One command of each writing kind; a bit and a byte the field at 60 leaves alone. -/
theorem witness_WritingCommandsFrame :
    State.reset.inv = true ∧ spanPremise (.store false false 60 4) = true ∧
      (59 : Int) < spanLo false 60 4 ∧ (6 : Int) < spanLo false 60 4 / 8 ∧
      (∃ t, exec (.store false false 60 4) State.reset = .next t ∧ true = true) ∧
      (∃ t, exec (.encodeLinear false false 60 4) State.reset = .next t ∧ true = true) ∧
      ∃ t, exec (.encodeFixed false false 60 4 2) State.reset = .next t ∧ true = true :=
  ⟨by decide, by decide, by decide, by decide, exists_next_of_answers (p := fun _ => true) (by decide),
    exists_next_of_answers (p := fun _ => true) (by decide),
    exists_next_of_answers (p := fun _ => true) (by decide)⟩
theorem witness_StoreStepTouchesOnlyItsBits :
    (3 : Nat) < 8 ∧ (4 + 4 : Nat) ≤ 8 ∧ (3 : Nat) < 4 ∧ Memory.wf [] = true ∧ spanOK false 4 4 = true ∧
      storeWalk 0xF (chunks false 4 4) [] = .ok [(0, 0xF0)] ∧ ∀ c ∈ chunks false 4 4, c.b ≠ 1 := by
  decide
theorem witness_StoreReplacesTheField :
    State.reset.inv = true ∧ spanOK true 63 64 = true ∧ badLength 0 ∧ badLength 65 := by
  unfold badLength
  decide
/-- A store twice, and two frames that differ inside the span only. -/
theorem witness_StoreIsIdempotent :
    let s := { State.reset with frame := [(0, 0x10)] }
    let s' := { State.reset with frame := [(0, 0x20)] }
    spanOK false 4 4 = true ∧ s.inv = true ∧ s'.inv = true ∧ s.port.value = s'.port.value ∧
      (∀ p, p < 4 → s.frame.frame64.getLsbD p = s'.frame.frame64.getLsbD p) ∧
      (∃ t, exec (.store false false 4 4) s = .next t ∧
        answers (exec (.store false false 4 4) t) (fun _ => true) = true) ∧
      ∃ t, exec (.store false false 4 4) s' = .next t ∧ true = true :=
  ⟨by decide, by decide, by decide, by decide, by decide,
    exists_next_of_answers (p := fun t => answers (exec (.store false false 4 4) t) (fun _ => true)) (by decide),
    exists_next_of_answers (p := fun _ => true) (by decide)⟩
/-- The longest field and the shortest. -/
theorem witness_ConventionsNameTheSameLayouts :
    State.reset.inv = true ∧ (1 ≤ 64 ∧ 64 ≤ 63 + 1 ∧ 63 < 64) ∧ (1 ≤ 1 ∧ 1 ≤ 0 + 1 ∧ 0 < 64) := by decide
theorem witness_RoundTripUnsigned :
    (begins 0 ⟨0, 0xFFF, 0, 0⟩).inv = true ∧ spanOK true 23 12 = true ∧
      (begins 0 ⟨0, 0xFFF, 0, 0⟩).port.value.toNat < 2 ^ 12 := by decide
/-- Both ends of the range of an 8-bit field, and the ends of the range of a 64-bit one. -/
theorem witness_RoundTripSigned :
    State.reset.inv = true ∧ spanOK false 8 8 = true ∧ inFieldRange true 8 (-128) ∧ inFieldRange true 8 127 ∧
      ¬ inFieldRange true 8 128 ∧ inFieldRange true 64 (BitVec.toInt 0x8000000000000000#64) := by
  refine ⟨by decide, by decide, ?_, ?_, ?_, ?_⟩ <;> simp [inFieldRange]
theorem witness_OperationsRoundToNearestEven :
    (Fp.ofBits 0x3FB999999999999A).finite = true ∧ (Fp.ofBits 0x3FB999999999999A).toRat ≠ 0 := by
  have h : Fp.ofBits 0x3FB999999999999A = .fin false 7205759403792794 (-56) := by decide
  rw [h]
  exact ⟨rfl, by simp [Fp.toRat]⟩
theorem witness_SmallIntegersConvertExactly : |(2 ^ 53 : Int)| ≤ 2 ^ 53 ∧ |(-(2 ^ 53) : Int)| ≤ 2 ^ 53 := by
  decide
theorem witness_ScaleIsPowerOfTwo : (0 : Nat) < 64 ∧ (63 : Nat) < 64 := by decide
theorem witness_ConversionTruncatesTowardZero :
    Fp.nan.finite = false ∧ (Fp.inf true).finite = false ∧ 0 ≤ (Fp.fin false 3 (-1)).toRat ∧
      (Fp.fin true 3 (-1)).toRat ≤ 0 := by
  refine ⟨rfl, rfl, ?_, ?_⟩ <;> norm_num [Fp.toRat]
/-- A NaN, both infinities, a zero, and a finite number that is none. -/
theorem witness_InfinitiesAndNaNs :
    Fp.ofBits 0x7FF8000000000000 = .nan ∧ Fp.ofBits 0x7FF0000000000000 = .inf false ∧
      Fp.ofBits 0xFFF0000000000000 = .inf true ∧ (Fp.ofBits 0x8000000000000000).finite = true ∧
      (Fp.ofBits 0x8000000000000000).isZero = true ∧ (Fp.ofBits 0x0000000000000001).finite = true ∧
      (Fp.ofBits 0x0000000000000001).isZero = false := by decide
/-- A sum of two -0.0 and one of 1.0 and -1.0; a difference of 1.0 and 1.0; a divisor that is not zero. -/
theorem witness_SignsOfResults :
    let one := Fp.ofBits 0x3FF0000000000000
    let minusOne := Fp.ofBits 0xBFF0000000000000
    let minusZero := Fp.ofBits 0x8000000000000000
    one.finite = true ∧ minusOne.finite = true ∧ minusZero.finite = true ∧ one.isZero = false ∧
      minusZero.toRat + minusZero.toRat = 0 ∧ one.toRat + minusOne.toRat = 0 ∧ one.toRat - one.toRat = 0 := by
  have h1 : Fp.ofBits 0x3FF0000000000000 = .fin false (2 ^ 52) (-52) := by decide
  have h2 : Fp.ofBits 0xBFF0000000000000 = .fin true (2 ^ 52) (-52) := by decide
  have h3 : Fp.ofBits 0x8000000000000000 = .fin true 0 (-1074) := by decide
  rw [h1, h2, h3]
  refine ⟨rfl, rfl, rfl, by decide, ?_, ?_, ?_⟩ <;> simp [Fp.toRat]
theorem witness_DecodeLinearAnswers : spanOK true 15 16 = true ∧ badLength 0 ∧ badLength 65 := by
  unfold badLength
  decide
theorem witness_DecodedPatternReadsAsComputed : spanOK true 15 4 = true ∧ (63 : Nat) < 64 := by decide
/-- Both zeros, with the offset of 95_test_vectors.md L-D7. -/
theorem witness_ZeroFactorDecodesToOffset :
    spanOK false 0 8 = true ∧ zeroFactor ⟨0, 0, 0, 0x4014000000000000⟩ ∧
      zeroFactor ⟨0, 0, 0x8000000000000000, 0x4014000000000000⟩ ∧
      (Fp.ofBits 0x4014000000000000).finite = true := by
  unfold zeroFactor
  decide
/-- 95_test_vectors.md L-E1 and L-E19 to L-E22. -/
theorem witness_EncodeLinearStores :
    let c : Command := ⟨0, 0x4039800000000000, 0x3FE0000000000000, 0xC044000000000000⟩
    ¬ zeroFactor c ∧ State.reset.inv = true ∧ spanOK false 0 8 = true ∧
      ((Fp.ofBits c.value).sub (Fp.ofBits c.offset)).div (Fp.ofBits c.factor) =
        .fin false (131 * 2 ^ 45) (-45) ∧
      badLength 0 ∧ badLength 65 ∧ zeroFactor ⟨0, 0, 0, 0⟩ ∧ zeroFactor ⟨0, 0, 0x8000000000000000, 0⟩ := by
  unfold zeroFactor badLength
  decide
/-- 95_test_vectors.md L-E2: the quotient -25.4 is cut to -25, in the signed range of 8 bits; the ends of the two ranges. -/
theorem witness_LinearDecodeAfterEncode :
    let c : Command := ⟨0, 0xC029666666666666, 0x3FE0000000000000, 0⟩
    State.reset.inv = true ∧ spanOK false 0 8 = true ∧ ¬ zeroFactor c ∧
      ((Fp.ofBits c.value).sub (Fp.ofBits c.offset)).div (Fp.ofBits c.factor) =
        .fin true 7149464408450662 (-48) ∧
      truncFin true 7149464408450662 (-48) = -25 ∧ inFieldRange true 8 (-25) ∧ inFieldRange true 8 (-128) ∧
      inFieldRange true 8 127 ∧ inFieldRange false 8 0 ∧ inFieldRange false 8 255 := by
  refine ⟨by decide, by decide, by unfold zeroFactor; decide, by decide +kernel, by decide, ?_, ?_, ?_, ?_, ?_⟩ <;>
    simp [inFieldRange]
theorem witness_DecodeFixedAnswers : spanOK true 15 4 = true ∧ badLength 0 ∧ badLength 65 := by
  unfold badLength
  decide
theorem witness_DecodeFixedIsExact :
    spanOK false 0 53 = true ∧ spanOK false 0 64 = true ∧ (63 : Nat) < 64 ∧ (53 : Nat) ≤ 53 := by decide
/-- 95_test_vectors.md Q-E5 and Q-E15. -/
theorem witness_EncodeFixedStores :
    State.reset.inv = true ∧ spanOK false 0 16 = true ∧
      (Fp.ofBits 0x3FF8000000000000).mul (Fp.pow2 8) = .fin false (384 * 2 ^ 44) (-44) ∧ badLength 65 := by
  unfold badLength
  decide
/-- 95_test_vectors.md Q-E10: -0.75 in a signed nibble with three fractional bits; and the largest value below 2^64 in a 64-bit field. -/
theorem witness_FixedPointRoundTrip :
    State.reset.inv = true ∧
      (spanOK true 15 4 = true ∧ (Fp.ofBits 0xBFE8000000000000).finite = true ∧
        (Fp.ofBits 0xBFE8000000000000).toRat * 2 ^ 3 = ((-6 : Int) : ℚ) ∧ inFieldRange true 4 (-6)) ∧
      (spanOK false 0 64 = true ∧ (Fp.ofBits 0x43EFFFFFFFFFFFFF).finite = true ∧
        (Fp.ofBits 0x43EFFFFFFFFFFFFF).toRat * 2 ^ 0 = ((2 ^ 64 - 2 ^ 11 : Int) : ℚ) ∧
        inFieldRange false 64 (2 ^ 64 - 2 ^ 11)) := by
  have h1 : Fp.ofBits 0xBFE8000000000000 = .fin true (3 * 2 ^ 51) (-53) := by decide
  have h2 : Fp.ofBits 0x43EFFFFFFFFFFFFF = .fin false (2 ^ 53 - 1) 11 := by decide
  rw [h1, h2]
  refine ⟨by decide, ⟨by decide, rfl, ?_, ?_⟩, by decide, rfl, ?_, ?_⟩
  · norm_num [Fp.toRat]
  · simp [inFieldRange]
  · norm_num [Fp.toRat]
  · simp [inFieldRange]
/-- -1.25 with one fractional bit: the product -2.5 is cut to -2. -/
theorem witness_FixedPointTruncates :
    let q := (Fp.ofBits 0xBFF4000000000000).toRat * 2 ^ 1
    State.reset.inv = true ∧ spanOK true 15 4 = true ∧ (Fp.ofBits 0xBFF4000000000000).finite = true ∧
      |((-2 : Int) : ℚ)| ≤ |q| ∧ |q - (-2 : Int)| < 1 ∧ q ≤ 0 ∧ inFieldRange true 4 (-2) := by
  have h : Fp.ofBits 0xBFF4000000000000 = .fin true (5 * 2 ^ 50) (-52) := by decide
  rw [h]
  refine ⟨by decide, by decide, rfl, ?_, ?_, ?_, ?_⟩
  · norm_num [Fp.toRat, abs_of_pos]
  · norm_num [Fp.toRat, abs_lt]
  · norm_num [Fp.toRat]
  · simp [inFieldRange]
/-- 95_test_vectors.md section 2.9, one reading and one writing command, and ENCODE_LINEAR with a factor that is not zero. -/
theorem witness_SpanOverflowGoesOn :
    (¬ badLength 8 ∧ spanPremise (.extract false false 60 8) = false ∧
        (Instr.extract false false 60 8).writes = false) ∧
      (¬ badLength 4 ∧ spanPremise (.store true false 1 4) = false ∧
        (Instr.store true false 1 4).writes = true) ∧
      (spanPremise (.encodeLinear true false 1 4) = false ∧
        ¬ ((Instr.encodeLinear true false 1 4).op = 3 ∧ zeroFactor ⟨0, 0, 1, 0⟩)) := by
  unfold badLength zeroFactor
  decide
theorem witness_ResultExactlyFromReaders :
    ∃ t, step (begins 3 ⟨0x00000800, 0, 0, 0⟩) = .next t ∧ (t.responses == [] ++ [⟨.ok, some 3⟩]) = true :=
  exists_next_of_answers (p := fun t => t.responses == [] ++ [⟨.ok, some 3⟩]) (by decide)

end Sys2Proof.Tests
end

