-- ==== Sys2Proof/Proofs/Scope.lean ====
section
/-! SUPPORT. Proofs of the statements of 00_scope.md: the four operations and the two conversions of binary64, the frame bytes, and the run of the host's list. -/
namespace Sys2Proof.Machine

/-! Finite values as rationals. -/

theorem signed_cast (neg : Bool) (m : Nat) :
    ((signed neg m : Int) : ℚ) = (if neg then -1 else 1) * m := by
  cases neg <;> simp [signed]

theorem Fp.toRat_fin (neg : Bool) (m : Nat) (e : Int) :
    (Fp.fin neg m e).toRat = (signed neg m : Int) * 2 ^ e := by
  rw [signed_cast, Fp.toRat]

theorem Fp.exists_fin_of_finite {x : Fp} (h : x.finite = true) : ∃ neg m e, x = .fin neg m e := by
  cases x with
  | fin neg m e => exact ⟨neg, m, e, rfl⟩
  | nan | inf _ => cases h

@[simp] theorem Fp.toRat_neg (x : Fp) : x.neg.toRat = -x.toRat := by
  cases x with
  | fin neg m e => cases neg <;> simp [Fp.neg, Fp.toRat]
  | nan | inf _ => simp [Fp.neg, Fp.toRat]

/-- The fraction the model rounds for `m * 2^e` is that number. -/
theorem scaleUp_div_scaleUp_one (m : Nat) (e : Int) :
    ((scaleUp m e : Nat) : ℚ) / (scaleUp 1 (-e) : Nat) = m * 2 ^ e := by
  simpa [zpow_neg] using scaleUp_div m 1 (-e)

/-- One multiple of `2^g` and the exponent `g` left over: no alignment loses a bit. -/
theorem scaleUp_mul_zpow (m : Nat) {e g : Int} (h : g ≤ e) :
    ((scaleUp m (e - g) : Nat) : ℚ) * 2 ^ g = m * 2 ^ e := by
  have hpow : (2 : ℚ) ^ (e - g).toNat * 2 ^ g = 2 ^ e := by
    rw [← zpow_natCast, ← zpow_add₀ two_ne_zero]
    congr 1
    omega
  rw [scaleUp, Nat.cast_mul, Nat.cast_pow, Nat.cast_ofNat, mul_assoc, hpow]

/-- The sum `Fp.add` takes of two aligned significands is the exact sum. -/
theorem alignedSum_eq (a b : Bool) (m n : Nat) (e f : Int) :
    ((signed a (scaleUp m (e - min e f)) + signed b (scaleUp n (f - min e f)) : Int) : ℚ) *
        2 ^ min e f = (Fp.fin a m e).toRat + (Fp.fin b n f).toRat := by
  have hm := scaleUp_mul_zpow m (min_le_left e f)
  have hn := scaleUp_mul_zpow n (min_le_right e f)
  rw [Int.cast_add, signed_cast, signed_cast, add_mul, mul_assoc, mul_assoc, hm, hn, Fp.toRat,
    Fp.toRat, mul_assoc, mul_assoc]

/-- An integer is its sign and its magnitude. -/
theorem signed_natAbs (i : Int) : signed (decide (i < 0)) i.natAbs = i := by
  rcases lt_or_ge i 0 with h | h
  · simp [signed, h, abs_of_neg h]
  · simp [signed, not_lt.2 h, abs_of_nonneg h]

/-- The exact product is the product of the numbers. -/
theorem Fp.toRat_fin_mul (a b : Bool) (m n : Nat) (e f : Int) :
    (Fp.fin (a ^^ b) (m * n) (e + f)).toRat = (Fp.fin a m e).toRat * (Fp.fin b n f).toRat := by
  simp only [Fp.toRat, zpow_add₀ (two_ne_zero (α := ℚ))]
  cases a <;> cases b <;> simp <;> ring

/-- The two scaled significands `Fp.div` divides have the quotient of the numbers. -/
theorem Fp.toRat_fin_div (a b : Bool) (m n : Nat) (e f : Int) :
    (if a ^^ b then -1 else 1) * (((scaleUp m (e - f) : Nat) : ℚ) / (scaleUp n (f - e) : Nat)) =
      (Fp.fin a m e).toRat / (Fp.fin b n f).toRat := by
  have hq : ((scaleUp m (e - f) : Nat) : ℚ) / (scaleUp n (f - e) : Nat) = m * 2 ^ e / (n * 2 ^ f) := by
    have h := scaleUp_div m n (f - e)
    rw [neg_sub, zpow_sub₀ two_ne_zero] at h
    rw [h]
    field_simp
  rw [hq, Fp.toRat, Fp.toRat]
  cases a <;> cases b <;> simp [neg_div, div_neg]

/-! Correct rounding (00_scope.md R14). -/

theorem roundRat_nearest_signed (neg : Bool) (num : Nat) {den : Nat} (hd : 0 < den) :
    (roundRat .nearestEven neg num den).isNearest ((if neg then -1 else 1) * ((num : ℚ) / den)) := by
  rcases Nat.eq_zero_or_pos num with rfl | hn
  · simpa [roundRat] using Fp.zero_isNearest neg
  · exact roundRat_isNearest hn hd neg

theorem roundDyadic_isNearest (neg : Bool) (m : Nat) (e : Int) :
    (roundDyadic neg m e).isNearest (Fp.fin neg m e).toRat := by
  have h := roundRat_nearest_signed neg (scaleUp m e) (scaleUp_pos Nat.one_pos (-e))
  rwa [scaleUp_div_scaleUp_one, ← mul_assoc] at h

/-- A sum of integers on one grid, rounded: what `Fp.add` does once the operands are aligned. -/
theorem roundDyadic_int_isNearest (k : Int) (e : Int) :
    (roundDyadic (decide (k < 0)) k.natAbs e).isNearest ((k : ℚ) * 2 ^ e) := by
  have h := roundDyadic_isNearest (decide (k < 0)) k.natAbs e
  rwa [Fp.toRat_fin, signed_natAbs] at h

theorem Fp.ofInt_isNearest (i : Int) : (Fp.ofInt i).isNearest (i : ℚ) := by
  have h := roundDyadic_int_isNearest i 0
  rwa [zpow_zero, mul_one] at h

theorem Fp.add_isNearest {x y : Fp} (hx : x.finite = true) (hy : y.finite = true) :
    (x.add y).isNearest (x.toRat + y.toRat) := by
  obtain ⟨a, m, e, rfl⟩ := Fp.exists_fin_of_finite hx
  obtain ⟨b, n, f, rfl⟩ := Fp.exists_fin_of_finite hy
  rw [← alignedSum_eq]
  simp only [Fp.add]
  split
  · next hsum =>
    rw [hsum, Int.cast_zero, zero_mul]
    exact Fp.zero_isNearest _
  · exact roundDyadic_int_isNearest _ _

@[simp] theorem Fp.neg_finite (x : Fp) : x.neg.finite = x.finite := by
  cases x <;> rfl

theorem Fp.sub_isNearest {x y : Fp} (hx : x.finite = true) (hy : y.finite = true) :
    (x.sub y).isNearest (x.toRat - y.toRat) := by
  rw [sub_eq_add_neg, ← Fp.toRat_neg]
  exact Fp.add_isNearest hx (y.neg_finite.trans hy)

theorem Fp.mul_isNearest {x y : Fp} (hx : x.finite = true) (hy : y.finite = true) :
    (x.mul y).isNearest (x.toRat * y.toRat) := by
  obtain ⟨a, m, e, rfl⟩ := Fp.exists_fin_of_finite hx
  obtain ⟨b, n, f, rfl⟩ := Fp.exists_fin_of_finite hy
  rw [← Fp.toRat_fin_mul]
  exact roundDyadic_isNearest _ _ _

/-- A quotient by a significand that is not 0 is one rounding of the quotient of the scaled significands. -/
theorem Fp.div_fin (a b : Bool) (m : Nat) {n : Nat} (e f : Int) (hn : n ≠ 0) :
    (Fp.fin a m e).div (.fin b n f) =
      roundRat .nearestEven (a ^^ b) (scaleUp m (e - f)) (scaleUp n (f - e)) := by
  rw [Fp.div, if_neg hn]
  rfl

theorem Fp.div_isNearest {x y : Fp} (hx : x.finite = true) (hy : y.finite = true)
    (h0 : y.toRat ≠ 0) : (x.div y).isNearest (x.toRat / y.toRat) := by
  obtain ⟨a, m, e, rfl⟩ := Fp.exists_fin_of_finite hx
  obtain ⟨b, n, f, rfl⟩ := Fp.exists_fin_of_finite hy
  have hn : n ≠ 0 := by
    rintro rfl
    simp [Fp.toRat] at h0
  rw [Fp.div_fin a b m e f hn, ← Fp.toRat_fin_div]
  exact roundRat_nearest_signed _ _ (scaleUp_pos (Nat.pos_of_ne_zero hn) _)

/-! The sign of a rounded number (log entry 18). -/

@[simp] theorem Fp.zero_isNeg (neg : Bool) : (Fp.zero neg).isNeg = neg := rfl

/-- A rounding keeps the sign it is given, on each of its four ways out: zero, carry, overflow, and the plain one. -/
theorem roundRat_isNeg (neg : Bool) (num : Nat) {den : Nat} (hd : 0 < den) :
    (roundRat .nearestEven neg num den).isNeg = neg := by
  rcases Nat.eq_zero_or_pos num with rfl | hn
  · simp [roundRat]
  · obtain ⟨m, q, -, -, -, -, -, -, -, hres⟩ := roundRat_grid neg hn hd
    rw [hres]
    split <;> split <;> rfl

theorem Fp.mul_isNeg {x y : Fp} (hx : x.finite = true) (hy : y.finite = true) :
    (x.mul y).isNeg = (x.isNeg ^^ y.isNeg) := by
  obtain ⟨a, m, e, rfl⟩ := Fp.exists_fin_of_finite hx
  obtain ⟨b, n, f, rfl⟩ := Fp.exists_fin_of_finite hy
  exact roundRat_isNeg _ _ (scaleUp_pos Nat.one_pos _)

theorem Fp.div_isNeg {x y : Fp} (hx : x.finite = true) (hy : y.finite = true)
    (h0 : y.isZero = false) : (x.div y).isNeg = (x.isNeg ^^ y.isNeg) := by
  obtain ⟨a, m, e, rfl⟩ := Fp.exists_fin_of_finite hx
  obtain ⟨b, n, f, rfl⟩ := Fp.exists_fin_of_finite hy
  have hn : n ≠ 0 := by simpa [Fp.isZero] using h0
  rw [Fp.div_fin a b m e f hn]
  exact roundRat_isNeg _ _ (scaleUp_pos (Nat.pos_of_ne_zero hn) _)

theorem Fp.add_of_sum_zero {x y : Fp} (hx : x.finite = true) (hy : y.finite = true)
    (h : x.toRat + y.toRat = 0) : x.add y = Fp.zero (x.isNeg && y.isNeg) := by
  obtain ⟨a, m, e, rfl⟩ := Fp.exists_fin_of_finite hx
  obtain ⟨b, n, f, rfl⟩ := Fp.exists_fin_of_finite hy
  rw [← alignedSum_eq, mul_eq_zero_iff_right (zpow_ne_zero _ two_ne_zero), Int.cast_eq_zero] at h
  simp only [Fp.add, h, if_true, Fp.isNeg]

theorem Fp.neg_isNeg {x : Fp} (hx : x.finite = true) : x.neg.isNeg = !x.isNeg := by
  obtain ⟨a, m, e, rfl⟩ := Fp.exists_fin_of_finite hx
  rfl

theorem Fp.sub_of_difference_zero {x y : Fp} (hx : x.finite = true) (hy : y.finite = true)
    (h : x.toRat - y.toRat = 0) : x.sub y = Fp.zero (x.isNeg && !y.isNeg) := by
  rw [sub_eq_add_neg, ← Fp.toRat_neg] at h
  rw [← Fp.neg_isNeg hy]
  exact Fp.add_of_sum_zero hx (y.neg_finite.trans hy) h

/-! Float to raw (00_scope.md R15). -/

/-- The conversion goes through a signed integer as wide as the result, so the extension adds nothing. -/
theorem wrapInt_eq (t : Int) : wrapInt t = BitVec.ofInt 64 t := BitVec.signExtend_eq _

theorem State.f2raw_fin (s : State) (neg : Bool) (m : Nat) (e : Int) :
    s.f2raw (.fin neg m e) = BitVec.ofInt 64 (truncFin neg m e) := wrapInt_eq _

theorem State.f2raw_of_not_finite (s : State) {x : Fp} (h : x.finite = false) :
    s.f2raw x = s.draw Config.cvtNonfinite := by
  cases x with
  | nan | inf _ => rfl
  | fin _ _ _ => cases h

/-- The magnitude of the truncation is the floor of the magnitude. -/
theorem scaleUp_div_eq_floor (m : Nat) (e : Int) :
    scaleUp m e / scaleUp 1 (-e) = ⌊(m : ℚ) * 2 ^ e⌋₊ := by
  rw [← scaleUp_div_scaleUp_one, Nat.floor_div_eq_div]

theorem truncFin_eq_floor (neg : Bool) (m : Nat) (e : Int) :
    truncFin neg m e = signed neg ⌊(m : ℚ) * 2 ^ e⌋₊ := by
  rw [truncFin, scaleUp_div_eq_floor]

/-- The truncation is the nearest integer on the side of zero (00_scope.md R11). -/
theorem truncFin_toward_zero (neg : Bool) (m : Nat) (e : Int) :
    let q := (Fp.fin neg m e).toRat
    |(truncFin neg m e : ℚ)| ≤ |q| ∧ |q - truncFin neg m e| < 1 ∧
      (0 ≤ q → 0 ≤ truncFin neg m e) ∧ (q ≤ 0 → truncFin neg m e ≤ 0) := by
  have hx : (0 : ℚ) ≤ (m : ℚ) * 2 ^ e := by positivity
  have hle := Nat.floor_le hx
  have hlt := Nat.lt_floor_add_one ((m : ℚ) * 2 ^ e)
  have hzero : (m : ℚ) * 2 ^ e ≤ 0 → ⌊(m : ℚ) * 2 ^ e⌋₊ = 0 := Nat.floor_of_nonpos
  simp only [truncFin_eq_floor, Fp.toRat, mul_assoc]
  generalize (m : ℚ) * 2 ^ e = x at hx hle hlt hzero
  have habs : |x - ⌊x⌋₊| < 1 := by rw [abs_of_nonneg] <;> linarith
  cases neg with
  | false =>
    simp only [signed, Bool.false_eq_true, if_false, one_mul, Int.cast_natCast, Nat.abs_cast,
      abs_of_nonneg hx]
    exact ⟨hle, habs, fun _ => Int.natCast_nonneg _, fun h => by rw [hzero h, Nat.cast_zero]⟩
  | true =>
    simp only [signed, if_true, neg_one_mul, Int.cast_neg, Int.cast_natCast, abs_neg, Nat.abs_cast,
      abs_of_nonneg hx, neg_sub_neg, abs_sub_comm _ x]
    exact ⟨hle, habs, fun h => by rw [hzero (neg_nonneg.1 h), Nat.cast_zero, neg_zero],
      fun _ => neg_nonpos.2 (Int.natCast_nonneg _)⟩

/-! Frame bytes (00_scope.md R12). -/

theorem Memory.readByte_put_same {m : Memory} (hwf : m.wf = true) {b : Int} (h0 : 0 ≤ b) (h8 : b < 8)
    (v : U8) : (m.put b.toNat v).readByte b = .ok v := by
  rw [Memory.readByte_of_lt _ h0 h8, Memory.byteAt_put hwf, if_pos rfl]

/-- Every other address, outside the frame too, reads as before. -/
theorem Memory.readByte_put_other {m : Memory} (hwf : m.wf = true) {a b : Int} (h0 : 0 ≤ b)
    (hab : a ≠ b) (v : U8) : (m.put b.toNat v).readByte a = m.readByte a := by
  unfold Memory.readByte
  split
  · next ha =>
    have hne : a.toNat ≠ b.toNat := by
      simp only [Memory.exists?, Bool.and_eq_true, decide_eq_true_eq] at ha
      omega
    rw [Memory.byteAt_put hwf, if_neg hne]
  · rfl

/-! Issuing a command (00_scope.md R16, R17). -/

theorem runCommand_of_decode {s : State} {i : Instr} (h : decode s.port.cmd = .ok i) :
    runCommand s = exec i s := by
  simp only [runCommand, h]

theorem decode_encode {i : Instr} (h : i.wellFormed = true) : decode (encode i) = .ok i :=
  decode_eq_ok_iff.2 (Laws.EncodedFields.of_op (i.op_lt.trans (by decide)) h)

/-- The word, cut to its 32 bits, is the word. -/
theorem State.withFetchWord_toNat (s : State) (w : CmdWord) :
    s.withFetchWord 32 w.toNat = s.issueNext { s.port with cmd := w } := by
  rw [State.withFetchWord, Nat.mod_eq_of_lt w.isLt, BitVec.ofNat_toNat, BitVec.setWidth_eq]

/-! A run of the host's list (00_scope.md R17). -/

/-- Whether the action issues a command that is answered. -/
def HostAction.issues : HostAction → Bool
  | .issue _ => true
  | _ => false

/-- The step that takes an issued command gives its one response. -/
theorem step_issue_answers {s : State} {c : Command} {rest : List HostAction}
    (h : s.host = .issue c :: rest) :
    ∃ u r, step s = .next u ∧ u.host = rest ∧ u.responses = s.responses ++ [r] := by
  obtain ⟨-, frame, st, res, hrun, -⟩ := runCommand_ends (s.accept c rest)
  exact ⟨_, ⟨st, res⟩, (step_issue h).trans hrun, rfl, rfl⟩

/-- Every step takes the host's next action, with one response for a command issued and none for another action. -/
theorem step_takes_action {s : State} {a : HostAction} {rest : List HostAction} (h : s.host = a :: rest) :
    ∃ u new, step s = .next u ∧ u.host = rest ∧ u.responses = s.responses ++ new ∧
      new.length = if a.issues then 1 else 0 := by
  cases a with
  | issue c =>
    obtain ⟨u, r, hstep, hhost, hresp⟩ := step_issue_answers h
    exact ⟨u, [r], hstep, hhost, hresp, rfl⟩
  | putFrame v => exact ⟨_, [], step_putFrame h, rfl, (List.append_nil _).symm, rfl⟩
  | resetBlock => exact ⟨_, [], step_resetBlock h, rfl, (List.append_nil _).symm, rfl⟩
  | resetDuring c =>
    obtain ⟨frame, draws, hreset, -⟩ := resetDuringCommand_ends (s.accept c rest)
    exact ⟨_, [], (step_resetDuring h).trans hreset, rfl, (List.append_nil _).symm, rfl⟩

theorem run_succ_of_step {s u : State} (h : step s = .next u) (k : Nat) :
    Sys2Proof.core.run (k + 1) s = Sys2Proof.core.run k u := by
  have hcore : Sys2Proof.core.step s = .next u := h
  simp only [Host.Core.run, hcore]

/-- A run of as many steps as the list is long takes every action, with one response for each command issued. -/
theorem run_takes_list (l : List HostAction) {s : State} (h : s.host = l) :
    ∃ (t : State) (new : List Response), Sys2Proof.core.run l.length s = .next t ∧ t.host = [] ∧
      t.responses = s.responses ++ new ∧ new.length = l.countP HostAction.issues := by
  induction l generalizing s with
  | nil => exact ⟨s, [], rfl, h, (List.append_nil _).symm, rfl⟩
  | cons a rest ih =>
    obtain ⟨u, first, hstep, hu, hfirst, hlen⟩ := step_takes_action h
    obtain ⟨t, later, hrun, ht, hlater, hcount⟩ := ih hu
    refine ⟨t, first ++ later, (run_succ_of_step hstep _).trans hrun, ht, ?_, ?_⟩
    · rw [hlater, hfirst, List.append_assoc]
    · rw [List.length_append, hlen, hcount, List.countP_cons, Nat.add_comm]

/-! The statements. -/

/-- Settles O40: each operation is one rounding of the exact result (`roundRat_isNearest`). -/
theorem operationsRoundToNearestEven : Obligations.OperationsRoundToNearestEven :=
  ⟨fun _ _ hx hy => ⟨Fp.add_isNearest hx hy, Fp.sub_isNearest hx hy, Fp.mul_isNearest hx hy,
    Fp.div_isNearest hx hy⟩, Fp.ofInt_isNearest⟩

/-- Settles O43: the magnitude of the truncation is the floor of the magnitude. -/
theorem conversionTruncatesTowardZero : Obligations.ConversionTruncatesTowardZero :=
  ⟨fun s neg m e => ⟨s.f2raw_fin neg m e, truncFin_toward_zero neg m e⟩,
    fun s _ h => s.f2raw_of_not_finite h⟩

/-- Settles O45: a rounding keeps the sign it is given, and an exact zero takes its sign from `Fp.add`. -/
theorem signsOfResults : Obligations.SignsOfResults :=
  ⟨fun _ _ hx hy => ⟨Fp.mul_isNeg hx hy, Fp.div_isNeg hx hy, Fp.add_of_sum_zero hx hy,
    Fp.sub_of_difference_zero hx hy⟩, by decide⟩

/-- Settles O18, by read after write of the canonical list of cells. -/
theorem byteReadAfterWrite : Obligations.ByteReadAfterWrite := fun m b v hwf h0 h8 =>
  ⟨m.put b.toNat v, m.writeByte_of_lt h0 h8 v, Memory.wf_put hwf (by omega) v,
    Memory.readByte_put_same hwf h0 h8 v, fun _ hab => Memory.readByte_put_other hwf h0 hab v⟩

/-- Settles O15, by induction on the host's list; the second half is its first step. -/
theorem runEndsWithEveryCommandAnswered : Obligations.RunEndsWithEveryCommandAnswered := by
  refine ⟨fun s => run_takes_list s.host rfl, fun s c rest h => ?_⟩
  obtain ⟨u, r, hstep, hu, hr⟩ := step_issue_answers h
  obtain ⟨t, later, hrun, -, hlater, hcount⟩ := run_takes_list rest hu
  refine ⟨u, t, r, later, hstep, hu, hr, hrun, hlater, hcount, ?_, ?_⟩
  · rw [h]
    exact (run_succ_of_step hstep _).trans hrun
  · rw [hlater, hr, List.append_assoc, List.singleton_append]

/-- Settles O7: a legal word at the port runs its command. -/
theorem stepRunsDecodedCommand : Obligations.StepRunsDecodedCommand := fun s c rest _ hhost hdec =>
  (step_issue hhost).trans (runCommand_of_decode (s := s.accept c rest) hdec)

/-- Settles O8: the word placed first is the next command issued, and it decodes to `i`. -/
theorem fetchWordRunsNext : Obligations.FetchWordRunsNext := fun s i hwf => by
  rw [State.withFetchWord_toNat]
  exact stepRunsDecodedCommand _ _ _ i (State.issueNext_host s _) (decode_encode hwf)

end Sys2Proof.Machine
end

