-- ==== Sys2Proof/Proofs/State.lean ====
section
/-! SUPPORT. Proofs of the statements of 10_state.md: the frame stays canonical, nothing else survives a command, what a reset during a command spares, and which responses carry a result. -/
namespace Sys2Proof.Machine

/-! One step and the canonical form (10_state.md R26). -/

/-- Every step answers a next state whose frame is canonical if the frame before was. -/
theorem step_keeps_wf (s : State) :
    ∃ t, step s = .next t ∧ (s.frame.wf = true → t.frame.wf = true) := by
  cases hhost : s.host with
  | nil => exact ⟨s, step_idle hhost, id⟩
  | cons a rest =>
    cases a with
    | issue c =>
      obtain ⟨_, frame, st, res, hrun, hends⟩ := runCommand_ends (s.accept c rest)
      exact ⟨_, (step_issue hhost).trans hrun, hends.wf⟩
    | putFrame v => exact ⟨_, step_putFrame hhost, fun _ => Memory.wf_ofFrame64 v⟩
    | resetBlock => exact ⟨_, step_resetBlock hhost, id⟩
    | resetDuring c =>
      obtain ⟨frame, draws, hreset, hwf⟩ := resetDuringCommand_ends (s.accept c rest)
      exact ⟨_, (step_resetDuring hhost).trans hreset, hwf⟩

/-! A reset during a command (10_state.md R34, log entry 14). -/

/-- A command does not store exactly when it reads, has a bad length, or is an ENCODE_LINEAR with a zero `FACTOR`. -/
theorem State.stores_eq_false_iff (s : State) (i : Instr) :
    s.stores i = false ↔ i.writes = false ∨ badLength i.length ∨ (i.op = 3 ∧ zeroFactor s.port) := by
  rw [← lengthOK_eq_false_iff, ← State.factorIsZero_iff]
  simp only [State.stores, Bool.and_eq_false_iff, Bool.not_eq_false', Bool.and_eq_true, beq_iff_eq, or_assoc]

theorem resetDuringCommand_of_illegal {s : State} {e : DecodeError} (h : decode s.port.cmd = .error e) :
    resetDuringCommand s = .next s := by
  simp only [resetDuringCommand, h]

theorem resetDuringCommand_of_not_stores {s : State} {i : Instr} (h : decode s.port.cmd = .ok i)
    (hs : s.stores i = false) : resetDuringCommand s = .next s := by
  simp only [resetDuringCommand, h, hs, Bool.false_eq_true, if_false]

/-- A store that fits, cut off by a reset, is a store of a free value (93_implementation_defined.md U11). -/
theorem resetDuringCommand_of_stores {s : State} {i : Instr} (h : decode s.port.cmd = .ok i)
    (hs : s.stores i = true) (hfit : spanPremise i = true) {m : Memory}
    (hm : storeField s.frame i.bigEndian i.startBit i.length (s.draw Config.resetField) = .ok m) :
    resetDuringCommand s = .next { s with frame := m, draws := s.draws + 1 } := by
  unfold spanPremise at hfit
  simp only [resetDuringCommand, h, hs, hfit, hm, if_true]

/-- A store of a field that fits leaves every frame bit outside the span. -/
theorem storeField_spares {m : Memory} (hwf : m.wf = true) {be : Bool} {sb n : Nat}
    (h : spanOK be sb n = true) (v : U64) :
    ∃ m', storeField m be sb n v = .ok m' ∧ ∀ p : Nat, p < 64 →
      (p : Int) < spanLo be sb n ∨ spanHi be sb n < (p : Int) →
        m'.frame64.getLsbD p = m.frame64.getLsbD p := by
  obtain ⟨m', hm', -, hbit⟩ := storeField_bit hwf h v
  refine ⟨m', hm', fun p hp hout => ?_⟩
  rw [spanHi_eq] at hout
  rw [hbit p hp, if_neg (by omega)]

/-- A reset during a command leaves the bits outside the span of the command, whether or not it stores. -/
theorem resetDuringCommand_spares {s : State} (hwf : s.frame.wf = true) {i : Instr}
    (h : decode s.port.cmd = .ok i) (hfit : spanPremise i = true) {t : State}
    (hrun : resetDuringCommand s = .next t) {p : Nat} (hp : p < 64)
    (hout : (p : Int) < spanLo i.bigEndian i.startBit i.length ∨
      spanHi i.bigEndian i.startBit i.length < (p : Int)) :
    t.frame.frame64.getLsbD p = s.frame.frame64.getLsbD p := by
  cases hs : s.stores i with
  | false =>
    cases hrun.symm.trans (resetDuringCommand_of_not_stores h hs)
    rfl
  | true =>
    obtain ⟨m, hm, hspares⟩ := storeField_spares hwf hfit (s.draw Config.resetField)
    cases hrun.symm.trans (resetDuringCommand_of_stores h hs hfit hm)
    exact hspares p hp hout

/-! What a command's effect depends on (10_state.md R20). -/

/-- Two answers, each to a command run in its own state, leave one frame and give one response. -/
def SameEffect (s s' : State) (a a' : Answer) : Prop :=
  ∃ frame st res, AnswersWith a s frame st res ∧ AnswersWith a' s' frame st res

/-- The next states of two answers of the same effect. -/
theorem SameEffect.next_states {s s' t t' : State} {a a' : Answer} (h : SameEffect s s' a a')
    (ht : a = .next t) (ht' : a' = .next t') :
    t.frame = t'.frame ∧ ∃ r, t.responses = s.responses ++ [r] ∧ t'.responses = s'.responses ++ [r] := by
  obtain ⟨frame, st, res, ha, ha'⟩ := h
  cases ht.symm.trans ha
  cases ht'.symm.trans ha'
  exact ⟨rfl, ⟨st, res⟩, rfl, rfl⟩

section
variable {s s' : State} (hframe : s.frame = s'.frame)
include hframe

theorem raise_sameEffect (st : Status) : SameEffect s s' (raise st s) (raise st s') :=
  ⟨s.frame, st, none, rfl, by rw [hframe]; rfl⟩

/-- A reading command depends on the frame, on what it makes of the raw value, and, only where its span leaves the frame, on a draw. -/
theorem readCommand_sameEffect (be sg : Bool) (sb n : Nat) {f f' : U64 → U64} (hf : ∀ raw, f raw = f' raw)
    (hdraw : spanOK be sb n = false → s.draw Config.spanResult = s'.draw Config.spanResult) :
    SameEffect s s' (readCommand be sg sb n f s) (readCommand be sg sb n f' s') := by
  obtain rfl : f = f' := funext hf
  unfold readCommand
  rw [← hframe]
  split
  · split
    · next hfit =>
      rw [extractField_value s.frame sg hfit]
      exact ⟨s.frame, .ok, _, rfl, by rw [hframe]; rfl⟩
    · next hfit =>
      rw [← hdraw (Bool.not_eq_true _ ▸ hfit)]
      exact ⟨s.frame, .ok, _, rfl, by rw [hframe]; rfl⟩
  · exact raise_sameEffect hframe _

/-- A writing command depends on the frame, on the raw value, and, only where its span leaves the frame, on a draw. -/
theorem writeCommand_sameEffect (be : Bool) (sb n : Nat) {raw raw' : U64} (hraw : raw = raw')
    (hdraw : spanOK be sb n = false → s.draw Config.spanFrame = s'.draw Config.spanFrame) :
    SameEffect s s' (writeCommand be sb n raw s) (writeCommand be sb n raw' s') := by
  subst hraw
  unfold writeCommand
  rw [← hframe]
  split
  · split
    · next hfit =>
      obtain ⟨m, hm⟩ := storeWalk_ok (maskTo n raw) (chunks_tiles hfit).ok s.frame
      simp only [storeField, hm]
      exact ⟨m, .ok, none, rfl, rfl⟩
    · next hfit =>
      rw [← hdraw (Bool.not_eq_true _ ▸ hfit)]
      exact ⟨_, .ok, none, rfl, rfl⟩
  · exact raise_sameEffect hframe _

variable (hport : s.port = s'.port) (hdraws : s.draws = s'.draws)
include hport hdraws

theorem State.draw_congr {α : Type} (free : Nat → Command → U64 → α) : s.draw free = s'.draw free := by
  simp only [State.draw, hframe, hport, hdraws]

theorem State.resultBits_congr (x : Fp) : s.resultBits x = s'.resultBits x := by
  simp only [State.resultBits, State.draw_congr hframe hport hdraws]

theorem State.f2raw_congr (x : Fp) : s.f2raw x = s'.f2raw x := by
  simp only [State.f2raw, State.draw_congr hframe hport hdraws]

/-- A command depends on its frame, its operands and, for the free values, the draw counter. -/
theorem exec_sameEffect (i : Instr) : SameEffect s s' (exec i s) (exec i s') := by
  have hread := State.draw_congr hframe hport hdraws Config.spanResult
  have hwrite := State.draw_congr hframe hport hdraws Config.spanFrame
  have hbits := State.resultBits_congr hframe hport hdraws
  have hf2raw := State.f2raw_congr hframe hport hdraws
  cases i with
  | extract be sg sb n => exact readCommand_sameEffect hframe be sg sb n (fun _ => rfl) fun _ => hread
  | store be sg sb n =>
    exact writeCommand_sameEffect hframe be sb n (by simp only [State.valueRaw, hport]) fun _ => hwrite
  | decodeLinear be sg sb n =>
    refine readCommand_sameEffect hframe be sg sb n (fun raw => ?_) fun _ => hread
    simp only [hbits, State.factorFp, State.offsetFp, hport]
  | encodeLinear be sg sb n =>
    have hzero : s.factorIsZero = s'.factorIsZero := by
      simp only [State.factorIsZero, State.factorFp, hport]
    simp only [exec, execEncodeLinear, ← hzero]
    split
    · exact raise_sameEffect hframe _
    · refine writeCommand_sameEffect hframe be sb n ?_ fun _ => hwrite
      simp only [hf2raw, State.linearQuotient, State.valueFp, State.factorFp, State.offsetFp, hport]
  | decodeFixed be sg sb n fb =>
    exact readCommand_sameEffect hframe be sg sb n (fun _ => hbits _) fun _ => hread
  | encodeFixed be sg sb n fb =>
    refine writeCommand_sameEffect hframe be sb n ?_ fun _ => hwrite
    simp only [hf2raw, State.scaledValue, State.valueFp, hport]

theorem runCommand_sameEffect : SameEffect s s' (runCommand s) (runCommand s') := by
  unfold runCommand
  rw [← hport]
  split
  · exact exec_sameEffect hframe hport hdraws _
  · exact raise_sameEffect hframe _

end

/-! Binary64 results that are no NaN, so that no sign or fraction is drawn (93_implementation_defined.md U4). -/

theorem overflowed_ne_nan (r : Rounding) (neg : Bool) : overflowed r neg ≠ .nan := by
  cases r <;> exact Fp.noConfusion

/-- A rounding gives a zero, what an overflow gives, or a finite value. -/
theorem roundRat_ne_nan (r : Rounding) (neg : Bool) (num den : Nat) : roundRat r neg num den ≠ .nan := by
  rw [roundRat_eq]
  refine iteInduction (motive := (· ≠ Fp.nan)) (fun _ => Fp.noConfusion) fun _ => ?_
  exact iteInduction (motive := (· ≠ Fp.nan)) (fun _ => overflowed_ne_nan r neg) fun _ => Fp.noConfusion

theorem Fp.ofInt_ne_nan (i : Int) : Fp.ofInt i ≠ .nan := roundRat_ne_nan _ _ _ _

/-- The scale of the fixed-point commands as a value (42_fixedpoint.md R161). -/
theorem Fp.pow2_eq_fin {k : Nat} (hk : k < 64) : Fp.pow2 k = .fin false (2 ^ 52) ((k : Int) - 52) := by
  have hpack : BitVec.ofNat 64 ((1023 + k) * 2 ^ 52) = packBits false (1023 + k) 0 := by
    rw [packBits_eq, Bool.toNat_false, Nat.zero_mul, Nat.zero_add, Nat.add_zero]
  obtain ⟨hneg, hexpo, hfrac⟩ :=
    packBits_fields (neg := false) (expo := 1023 + k) (frac := 0) (by omega) (by omega)
  rw [Fp.pow2_eq, hpack, Fp.ofBits_eq, hneg, hexpo, hfrac, if_neg (by omega), if_neg (by omega)]
  congr 1
  omega

/-- A quotient by a finite number that is not 0 is no NaN. -/
theorem Fp.div_fin_ne_nan {x : Fp} (hx : x ≠ .nan) (b : Bool) {n : Nat} (hn : n ≠ 0) (f : Int) :
    x.div (.fin b n f) ≠ .nan := by
  cases x with
  | nan => exact absurd rfl hx
  | inf a => exact Fp.noConfusion
  | fin a m e =>
    rw [Fp.div_fin a b m e f hn]
    exact roundRat_ne_nan _ _ _ _

theorem Fp.div_pow2_ne_nan {x : Fp} (hx : x ≠ .nan) {k : Nat} (hk : k < 64) :
    x.div (Fp.pow2 k) ≠ .nan := by
  rw [Fp.pow2_eq_fin hk]
  exact Fp.div_fin_ne_nan hx _ (Nat.two_pow_pos 52).ne' _

/-- Only a NaN has no pattern of its own. -/
theorem Fp.exists_toBits {x : Fp} (hx : x ≠ .nan) : ∃ b, x.toBits? = some b := by
  cases x with
  | nan => exact absurd rfl hx
  | inf a => exact ⟨_, rfl⟩
  | fin a m e =>
    rw [Fp.toBits?_fin]
    split <;> exact ⟨_, rfl⟩

theorem State.resultBits_of_ne_nan (s s' : State) {x : Fp} (hx : x ≠ .nan) :
    s.resultBits x = s'.resultBits x := by
  obtain ⟨b, hb⟩ := Fp.exists_toBits hx
  simp only [State.resultBits, hb]

theorem fractionalBits_lt_of_decode {w : CmdWord} {i : Instr} (h : decode w = .ok i) :
    i.fractionalBits < 64 := by
  obtain ⟨-, -, -, -, -, -, -, -, hfrac⟩ := decode_eq_ok_iff.1 h
  rw [← hfrac]
  exact Nat.mod_lt _ (by decide)

/-- EXTRACT, STORE and DECODE_FIXED of a field that fits draw nothing, so the frame and the operands alone decide their effect. -/
theorem exec_sameEffect_of_fits {s s' : State} (hframe : s.frame = s'.frame) (hport : s.port = s'.port)
    {i : Instr} (hop : i.op = 0 ∨ i.op = 1 ∨ i.op = 4) (hfit : spanPremise i = true)
    (hfrac : i.fractionalBits < 64) : SameEffect s s' (exec i s) (exec i s') := by
  have hfits {P : Prop} (h : spanPremise i = false) : P := absurd hfit (by simp [h])
  cases i with
  | extract be sg sb n => exact readCommand_sameEffect hframe be sg sb n (fun _ => rfl) hfits
  | store be sg sb n =>
    exact writeCommand_sameEffect hframe be sb n (by simp only [State.valueRaw, hport]) hfits
  | decodeFixed be sg sb n fb =>
    exact readCommand_sameEffect hframe be sg sb n
      (fun _ => State.resultBits_of_ne_nan s s' (Fp.div_pow2_ne_nan (Fp.ofInt_ne_nan _) hfrac)) hfits
  | decodeLinear | encodeLinear | encodeFixed => simp [Instr.op] at hop

/-! Results (10_state.md R30). -/

theorem step_issue_illegal {s : State} {c : Command} {rest : List HostAction} (h : s.host = .issue c :: rest)
    {e : DecodeError} (hdec : decode c.cmd = .error e) :
    step s = raise .illegalCommand (s.accept c rest) := by
  rw [step_issue h]
  simp only [runCommand, State.accept_port, hdec]

/-! The statements. -/

/-- Settles O10, by the host's next action: `step_keeps_wf`. -/
theorem stepKeepsFrameCanonical : Obligations.StepKeepsFrameCanonical := fun s t hinv hstep => by
  obtain ⟨u, hu, hwf⟩ := step_keeps_wf s
  cases hstep.symm.trans hu
  exact hwf hinv

/-- Settles O13: a store cut off is a store of a free value, and every other command leaves the state. -/
theorem resetDuringCommandSparesTheRest : Obligations.ResetDuringCommandSparesTheRest := by
  intro s c rest hinv hhost
  obtain ⟨frame, draws, hrun, hwf⟩ := resetDuringCommand_ends (s.accept c rest)
  refine ⟨_, (step_resetDuring hhost).trans hrun, rfl, rfl, hwf hinv, ?_, fun i hi => ⟨fun hno => ?_, ?_⟩⟩
  · rintro ⟨e, he⟩
    cases hrun.symm.trans (resetDuringCommand_of_illegal he)
    rfl
  · have hstores := ((s.accept c rest).stores_eq_false_iff i).2 hno
    cases hrun.symm.trans (resetDuringCommand_of_not_stores hi hstores)
    rfl
  · exact fun hfit p hp hout => resetDuringCommand_spares (s := s.accept c rest) hinv hi hfit hrun hp hout

/-- Settles O16: the two runs have the frame, the port and the draw counter in common (`runCommand_sameEffect`). -/
theorem noStateSurvivesACommand : Obligations.NoStateSurvivesACommand := by
  intro s s' t t' c rest rest' hhost hhost' hframe hdraws ht ht'
  have heffect := runCommand_sameEffect (s := s.accept c rest) (s' := s'.accept c rest') hframe rfl hdraws
  exact heffect.next_states ((step_issue hhost).symm.trans ht) ((step_issue hhost').symm.trans ht')

/-- Settles O17: no draw is reached, the result of DECODE_FIXED being no NaN (`exec_sameEffect_of_fits`). -/
theorem fittingFieldsDrawNothing : Obligations.FittingFieldsDrawNothing := by
  intro s s' t t' c rest rest' i hhost hhost' hframe hdec hop hfit ht ht'
  have heffect := exec_sameEffect_of_fits (s := s.accept c rest) (s' := s'.accept c rest') hframe rfl hop hfit
    (fractionalBits_lt_of_decode hdec)
  exact heffect.next_states ((stepRunsDecodedCommand s c rest i hhost hdec).symm.trans ht)
    ((stepRunsDecodedCommand s' c rest' i hhost' hdec).symm.trans ht')

/-- Settles O31: a reading command's answer changes the responses and the draw counter at most (`exec_ends`). -/
theorem readingCommandsFrame : Obligations.ReadingCommandsFrame := by
  intro i s t hreads hexec
  obtain ⟨frame, st, res, hrun, hends⟩ := exec_ends i s
  cases hexec.symm.trans hrun
  obtain rfl := hends.reads hreads
  exact ⟨rfl, fun _ => rfl, rfl, rfl, ⟨st, res⟩, rfl⟩

/-- Settles O57: an illegal word has no result, and a legal one has one as `Ends.value` says. -/
theorem resultExactlyFromReaders : Obligations.ResultExactlyFromReaders := by
  intro s t c rest r hhost hstep hresp
  cases hdec : decode c.cmd with
  | error e =>
    cases hstep.symm.trans (step_issue_illegal hhost hdec)
    obtain rfl := List.singleton_inj.1 (List.append_cancel_left hresp)
    simp
  | ok i =>
    obtain ⟨frame, st, res, hrun, hends⟩ := exec_ends i (s.accept c rest)
    cases hstep.symm.trans ((stepRunsDecodedCommand s c rest i hhost hdec).trans hrun)
    obtain rfl := List.singleton_inj.1 (List.append_cancel_left hresp)
    simp [hends.value, and_comm]

/-- Settles O11: the empty list is at reset, and a step with an empty list is idle. -/
theorem resetIsIdle : Obligations.ResetIsIdle :=
  ⟨rfl, rfl, rfl, step_idle rfl, fun _ => step_idle⟩

/-- Settles O14, by the frame built from the number given. -/
theorem hostReplacesFrame : Obligations.HostReplacesFrame := fun _ v _ hhost =>
  ⟨Memory.ofFrame64 v, Memory.wf_ofFrame64 v, Memory.frame64_ofFrame64 v, step_putFrame hhost⟩

end Sys2Proof.Machine
end

