-- ==== Sys2Proof/Proofs/Memory.lean ====
section
/-! SUPPORT. Proofs of the statements of 20_memory.md: no access leaves the frame, the span of a field by convention, the bytes a walk visits, and which frame bits a field is. -/
namespace Sys2Proof.Machine

/-! Addresses that do not exist (20_memory.md R40, R41). -/

theorem Memory.exists?_eq_false_iff (b : Int) : Memory.exists? b = false ↔ ¬ (0 ≤ b ∧ b < 8) := by
  rw [← Bool.not_eq_true, Memory.exists?, Bool.and_eq_true, decide_eq_true_eq, decide_eq_true_eq]
  rfl

theorem Memory.readByte_of_outside (m : Memory) {b : Int} (h : ¬ (0 ≤ b ∧ b < 8)) :
    m.readByte b = .error (.noSuchAddress b) := by
  simp [Memory.readByte, (Memory.exists?_eq_false_iff b).2 h]

theorem Memory.writeByte_of_outside (m : Memory) {b : Int} (v : U8) (h : ¬ (0 ≤ b ∧ b < 8)) :
    m.writeByte b v = .error (.noSuchAddress b) := by
  simp [Memory.writeByte, (Memory.exists?_eq_false_iff b).2 h]

/-! The bytes a walk visits (20_memory.md R48, R51, 40_bitfield.md R121). -/

/-- How many frame bytes the `n` flat indices from `lo` on meet; `chunks_length` is its use. -/
def bytesMet (lo : Int) (n : Nat) : Nat :=
  if n = 0 then 0 else ((lo + n - 1) / 8 - lo / 8 + 1).toNat

theorem bytesMet_of_pos (lo : Int) {n : Nat} (hn : 1 ≤ n) :
    (bytesMet lo n : Int) = (lo + n - 1) / 8 - lo / 8 + 1 := by
  rw [bytesMet, if_neg (by omega)]
  omega

/-- Dropping the indices of the first byte, or all there are, leaves one byte less. -/
theorem bytesMet_drop_low {lo : Int} {w n : Nat} (hw : 1 ≤ w) (hwn : w ≤ n) (hin : lo % 8 + w ≤ 8)
    (hend : w = n ∨ (lo + w) % 8 = 0) : bytesMet lo n = bytesMet (lo + w) (n - w) + 1 := by
  unfold bytesMet
  rw [if_neg (by omega)]
  split <;> omega

/-- Dropping the indices of the last byte, or all there are, leaves one byte less. -/
theorem bytesMet_drop_high {lo : Int} {w n : Nat} (hw : 1 ≤ w) (hwn : w ≤ n)
    (hin : (w : Int) ≤ (lo + n - 1) % 8 + 1) (hend : w = n ∨ (lo + n - 1 - w) % 8 = 7) :
    bytesMet lo n = bytesMet lo (n - w) + 1 := by
  unfold bytesMet
  rw [if_neg (by omega)]
  split <;> omega

/-- One step of the little-endian walk takes the rest of its byte, or all the bits left. -/
theorem chunksLE_succ (fuel : Nat) (pos : Int) (rl : Nat) {rem : Nat} (hrem : rem ≠ 0) :
    ∃ cl w : Nat, 1 ≤ w ∧ w ≤ rem ∧ pos % 8 + w ≤ 8 ∧ (w = rem ∨ (pos + w) % 8 = 0) ∧
      chunksLE (fuel + 1) pos rl rem =
        ⟨pos / 8, cl, w, rl⟩ :: chunksLE fuel (pos + w) (rl + w) (rem - w) := by
  refine ⟨(pos % 8).toNat, min (8 - (pos % 8).toNat) rem, ?_, ?_, ?_, ?_, if_neg hrem⟩ <;> omega

/-- One step of the big-endian walk takes its byte from the current bit down, or all the bits left. -/
theorem chunksBE_succ (fuel : Nat) (pos : Int) {rem : Nat} (hrem : rem ≠ 0) :
    ∃ cl w : Nat, 1 ≤ w ∧ w ≤ rem ∧ (w : Int) ≤ pos % 8 + 1 ∧ (w = rem ∨ (pos - w) % 8 = 7) ∧
      chunksBE (fuel + 1) pos rem =
        ⟨pos / 8, cl, w, rem - w⟩ :: chunksBE fuel (pos - w) (rem - w) := by
  refine ⟨_, min ((pos % 8).toNat + 1) rem, ?_, ?_, ?_, ?_, if_neg hrem⟩ <;> omega

theorem chunksLE_width_sum (fuel : Nat) (pos : Int) (rl rem : Nat) (hfuel : rem ≤ fuel) :
    ((chunksLE fuel pos rl rem).map Chunk.w).sum = rem := by
  induction fuel generalizing pos rl rem with
  | zero => exact (Nat.le_zero.1 hfuel).symm
  | succ fuel ih =>
    by_cases hrem : rem = 0
    · simp [chunksLE, hrem]
    · obtain ⟨cl, w, hw, hwrem, -, -, hstep⟩ := chunksLE_succ fuel pos rl hrem
      rw [hstep, List.map_cons, List.sum_cons, ih _ _ _ (by omega)]
      exact Nat.add_sub_of_le hwrem

theorem chunksBE_width_sum (fuel : Nat) (pos : Int) (rem : Nat) (hfuel : rem ≤ fuel) :
    ((chunksBE fuel pos rem).map Chunk.w).sum = rem := by
  induction fuel generalizing pos rem with
  | zero => exact (Nat.le_zero.1 hfuel).symm
  | succ fuel ih =>
    by_cases hrem : rem = 0
    · simp [chunksBE, hrem]
    · obtain ⟨cl, w, hw, hwrem, -, -, hstep⟩ := chunksBE_succ fuel pos hrem
      rw [hstep, List.map_cons, List.sum_cons, ih _ _ (by omega)]
      exact Nat.add_sub_of_le hwrem

/-- The little-endian walk visits the bytes of its indices upwards. -/
theorem chunksLE_bytes (fuel : Nat) (pos : Int) (rl rem : Nat) (hfuel : rem ≤ fuel) :
    (chunksLE fuel pos rl rem).map Chunk.b =
      (List.range (bytesMet pos rem)).map fun j : Nat => pos / 8 + j := by
  induction fuel generalizing pos rl rem with
  | zero =>
    obtain rfl := Nat.le_zero.1 hfuel
    rfl
  | succ fuel ih =>
    by_cases hrem : rem = 0
    · simp [chunksLE, bytesMet, hrem]
    · obtain ⟨cl, w, hw, hwrem, hin, hend, hstep⟩ := chunksLE_succ fuel pos rl hrem
      rw [hstep, List.map_cons, ih _ _ _ (by omega), bytesMet_drop_low hw hwrem hin hend,
        List.range_succ_eq_map, List.map_cons, List.map_map]
      rcases hend with hlast | hnext
      · simp [hlast, bytesMet]
      · have hbyte : (pos + w) / 8 = pos / 8 + 1 := by omega
        simp [hbyte, add_assoc, add_comm]

/-- The big-endian walk visits the bytes of its indices downwards (90_conflicts.md C1). -/
theorem chunksBE_bytes (fuel : Nat) (lo : Int) (rem : Nat) (hfuel : rem ≤ fuel) :
    (chunksBE fuel (lo + rem - 1) rem).map Chunk.b =
      (List.range (bytesMet lo rem)).map fun j : Nat => (lo + rem - 1) / 8 - j := by
  induction fuel generalizing rem with
  | zero =>
    obtain rfl := Nat.le_zero.1 hfuel
    rfl
  | succ fuel ih =>
    by_cases hrem : rem = 0
    · simp [chunksBE, bytesMet, hrem]
    · obtain ⟨cl, w, hw, hwrem, hin, hend, hstep⟩ := chunksBE_succ fuel (lo + rem - 1) hrem
      have hpos : lo + rem - 1 - w = lo + (rem - w : Nat) - 1 := by omega
      rw [hstep, List.map_cons, hpos, ih _ (by omega), bytesMet_drop_high hw hwrem hin hend,
        List.range_succ_eq_map, List.map_cons, List.map_map]
      rcases hend with hlast | hnext
      · simp [hlast, bytesMet]
      · have hbyte : (lo + (rem - w : Nat) - 1) / 8 = (lo + rem - 1) / 8 - 1 := by omega
        simp [hbyte, sub_sub, add_comm]

/-- The bytes a walk visits, in its order: from the low end of the span up, or from the high end down. -/
theorem chunks_bytes (be : Bool) (sb n : Nat) :
    (chunks be sb n).map Chunk.b = (List.range (bytesMet (spanLo be sb n) n)).map
      fun j : Nat => if be then spanHi be sb n / 8 - j else spanLo be sb n / 8 + j := by
  cases be with
  | false => exact chunksLE_bytes n sb 0 n le_rfl
  | true =>
    have hpos : (sb : Int) = spanLo true sb n + n - 1 := spanHi_eq true sb n
    have h := chunksBE_bytes n (spanLo true sb n) n le_rfl
    rw [← hpos] at h
    exact h

theorem chunks_length (be : Bool) (sb n : Nat) : (chunks be sb n).length = bytesMet (spanLo be sb n) n := by
  simpa using congrArg List.length (chunks_bytes be sb n)

theorem chunks_bytes_nodup (be : Bool) (sb n : Nat) : ((chunks be sb n).map Chunk.b).Nodup := by
  rw [chunks_bytes]
  refine List.nodup_range.map fun i j hij => ?_
  cases be <;> simpa using hij

theorem chunks_width_sum (be : Bool) (sb n : Nat) : ((chunks be sb n).map Chunk.w).sum = n := by
  cases be with
  | false => exact chunksLE_width_sum n sb 0 n le_rfl
  | true => exact chunksBE_width_sum n sb n le_rfl

/-! Field bits and frame bits (20_memory.md R44, R45). -/

/-- Bit `k` of the raw value of a field: the field's own below its length, and the sign or zero from there on. -/
theorem fieldNumber_bit (s : State) {be : Bool} (sg : Bool) {sb n : Nat} (h : spanOK be sb n = true)
    {k : Nat} (hk : k < 64) :
    (BitVec.ofInt 64 (s.fieldNumber be sg sb n)).getLsbD k =
      if k < n then s.frame.frame64.getLsbD (spanLo be sb n + k).toNat
      else (sg && s.frame.frame64.getLsbD (spanLo be sb n + (n - 1 : Nat)).toNat) := by
  obtain ⟨r, hr, hbit⟩ := extractField_bit s.frame sg h
  obtain rfl := Except.ok.inj (hr.symm.trans (extractField_value s.frame sg h))
  exact hbit k hk

/-- The flat index of field bit `k`, counted from `startBit` as each convention counts. -/
theorem spanLo_add_toNat {be : Bool} {sb n k : Nat} (h : spanOK be sb n = true) (hk : k < n) :
    (spanLo be sb n + k).toNat = if be then sb - (n - 1 - k) else sb + k := by
  obtain ⟨-, -, hlo, -⟩ := span_bounds h
  cases be with
  | false =>
    simp only [spanLo, Bool.false_eq_true, if_false]
    omega
  | true =>
    simp only [spanLo, if_true] at hlo ⊢
    omega

/-! One layout under two names (20_memory.md R47). -/

theorem spanOK_little_iff {sb n : Nat} :
    spanOK false sb n = true ↔ 1 ≤ n ∧ n ≤ 64 ∧ sb + n ≤ 64 := by
  simp only [spanOK_iff, spanLo, spanHi, Bool.false_eq_true, if_false]
  omega

theorem spanOK_big_iff {sb n : Nat} :
    spanOK true sb n = true ↔ 1 ≤ n ∧ n ≤ 64 ∧ n ≤ sb + 1 ∧ sb < 64 := by
  simp only [spanOK_iff, spanLo, spanHi, if_true]
  omega

/-- A big-endian field has the span of the little-endian field that starts at its other end. -/
theorem spanLo_big_eq_little {sb n : Nat} (hn : n ≤ sb + 1) :
    spanLo true sb n = spanLo false (sb + 1 - n) n := by
  simp only [spanLo, if_true, Bool.false_eq_true, if_false]
  omega

section
variable {be be' : Bool} {sb sb' n : Nat} (h : spanOK be sb n = true) (h' : spanOK be' sb' n = true)
  (hlo : spanLo be sb n = spanLo be' sb' n)
include h h' hlo

/-- A reading command depends on its descriptor through the span alone. -/
theorem readCommand_eq_of_spanLo (sg : Bool) (f : U64 → U64) (s : State) :
    readCommand be sg sb n f s = readCommand be' sg sb' n f s := by
  rw [readCommand_fits sg f s h, readCommand_fits sg f s h', State.fieldNumber, State.fieldNumber, hlo]

/-- A writing command depends on its descriptor through the span alone: the canonical frame of a `FRAME64` is unique. -/
theorem writeCommand_eq_of_spanLo (raw : U64) {s : State} (hs : s.inv = true) :
    writeCommand be sb n raw s = writeCommand be' sb' n raw s := by
  obtain ⟨m, hwf, hm, hrun⟩ := writeCommand_fits raw hs h
  obtain ⟨m', hwf', hm', hrun'⟩ := writeCommand_fits raw hs h'
  obtain rfl : m = m' := Memory.eq_of_frame64 hwf hwf' (by rw [hm, hm', hlo])
  rw [hrun, hrun']

end

/-! The statements. -/

/-- Settles O9: the accessors test the address, every command ends as `exec_ends` says, and every step as `step_keeps_wf` says. -/
theorem stepAlwaysAnswersNext : Obligations.StepAlwaysAnswersNext := by
  refine ⟨fun m b v hb => ⟨m.readByte_of_outside hb, m.writeByte_of_outside v hb⟩, fun i s => ?_, fun s => ?_⟩
  · obtain ⟨_, _, _, hexec, -⟩ := exec_ends i s
    exact ⟨_, hexec⟩
  · obtain ⟨t, hstep, -⟩ := step_keeps_wf s
    exact ⟨t, hstep⟩

/-- Settles O27: the walk visits consecutive bytes (`chunks_bytes`), and its chunks tile the span (`chunks_tiles`). -/
theorem walkVisitsTheSpan : Obligations.WalkVisitsTheSpan := by
  intro be sb n h cs
  obtain ⟨hn, hn64, hlo, hhi⟩ := span_bounds h
  have hlen : (cs.length : Int) = spanHi be sb n / 8 - spanLo be sb n / 8 + 1 := by
    rw [spanHi_eq, ← bytesMet_of_pos _ hn, chunks_length]
  have hspan := spanHi_eq be sb n
  refine ⟨hlen, by omega, by omega, by omega, by omega, chunks_bytes_nodup be sb n,
    chunks_width_sum be sb n, fun c hc => ?_⟩
  obtain ⟨hb0, hb8, hw, hcl, -⟩ := (chunks_tiles h).ok c hc
  obtain ⟨hplace, -, hend⟩ := (chunks_tiles h).place c hc
  refine ⟨?_, ?_, hb0, hb8, hw, hcl⟩ <;> omega

/-- Settles O29: the bits of the field from its lowest flat index on, and that index counted from `startBit`. -/
theorem fieldBitsInFrameBytes : Obligations.FieldBitsInFrameBytes := by
  intro s be sb n h
  obtain ⟨-, hn64, hlo, hhi⟩ := span_bounds h
  refine ⟨_, BitVec.ofInt 64 (s.fieldNumber be false sb n), readCommand_fits false _ s h, rfl,
    fun k hk => ?_, fun k hk => ?_⟩
  · rw [fieldNumber_bit s false h (by omega), if_pos hk, Memory.frame64_bit _ (by omega),
      spanLo_add_toNat h hk]
  · rcases Nat.lt_or_ge k 64 with hk64 | hk64
    · rw [fieldNumber_bit s false h hk64, if_neg (by omega), Bool.false_and]
    · exact BitVec.getLsbD_of_ge _ _ hk64

/-- Settles O37: the two descriptors fit and have one span. -/
theorem conventionsNameTheSameLayouts : Obligations.ConventionsNameTheSameLayouts := by
  intro s sg sb n hs hn hnsb hsb
  have hbig : spanOK true sb n = true := spanOK_big_iff.2 (by omega)
  have hlittle : spanOK false (sb + 1 - n) n = true := spanOK_little_iff.2 (by omega)
  have hlo := spanLo_big_eq_little hnsb
  exact ⟨readCommand_eq_of_spanLo hbig hlittle hlo sg _ s, writeCommand_eq_of_spanLo hbig hlittle hlo _ hs⟩

/-- Settles O26, convention by convention; little-endian, `startBit < 64` follows from the rest. -/
theorem spanPremiseByConvention : Obligations.SpanPremiseByConvention := by
  intro sb n hsb
  refine ⟨spanOK_little_iff, ?_⟩
  rw [spanOK_big_iff]
  omega

end Sys2Proof.Machine
end

