-- ==== Sys2Proof/Proofs/Encoding.lean ====
section
/-! SUPPORT. Proofs of the statements of 30_encoding.md: decoding and encoding undo each other, which words are illegal and how they are answered, what the mask and match rows select, and the fields of a decoded word. -/
namespace Sys2Proof

/-! A word and its fields (30_encoding.md R71, R73). -/

/-- The nine fields make up the word. -/
theorem toNat_eq_sum_of_fields (w : CmdWord) :
    w.toNat = BitRange.rsv0.place (BitRange.rsv0.read w) + BitRange.op.place (BitRange.op.read w) +
      BitRange.bigEndian.place (BitRange.bigEndian.read w) +
      BitRange.isSigned.place (BitRange.isSigned.read w) +
      BitRange.startBit.place (BitRange.startBit.read w) + BitRange.rsv1.place (BitRange.rsv1.read w) +
      BitRange.length.place (BitRange.length.read w) + BitRange.rsv2.place (BitRange.rsv2.read w) +
      BitRange.fractionalBits.place (BitRange.fractionalBits.read w) := by
  have hw : w.toNat < 2 ^ 32 := w.isLt
  simp only [BitRange.place, BitRange.read, BitRange.rsv0, BitRange.op, BitRange.bigEndian,
    BitRange.isSigned, BitRange.startBit, BitRange.rsv1, BitRange.length, BitRange.rsv2,
    BitRange.fractionalBits, Config.startBitFieldWidth, Config.lenFieldWidth, Config.fracFieldWidth]
  omega

@[simp] theorem BitRange.place_zero (r : BitRange) : r.place 0 = 0 := Nat.zero_mul _

theorem BitRange.read_lt (r : BitRange) (w : CmdWord) : r.read w < 2 ^ r.width :=
  Nat.mod_lt _ (Nat.two_pow_pos _)

theorem BitRange.read_ne_zero_iff (r : BitRange) (w : CmdWord) :
    r.read w ≠ 0 ↔ w.extractLsb' r.lo r.width ≠ 0 := by
  simp [BitRange.read_eq_extract, BitVec.toNat_ne]

/-- A one-bit field is the bit at its place. -/
theorem BitRange.eq_getLsbD_of_read {r : BitRange} (hr : r.width = 1) {w : CmdWord} {b : Bool}
    (h : r.read w = b.toNat) : b = w.getLsbD r.lo := by
  have hlt : b.toNat < 2 ^ r.width := by
    rw [hr]
    exact b.toNat_lt
  have hbit := (r.read_eq_iff w hlt).1 h 0 (by omega)
  rw [Nat.testBit_bool_toNat] at hbit
  exact hbit.symm

/-! Encoding what was decoded (30_encoding.md R75). -/

theorem FieldsAre.wellFormed {w : CmdWord} {i : Instr} (h : FieldsAre w i) : i.wellFormed = true := by
  obtain ⟨-, -, -, -, -, -, hstart, hlength, hfrac⟩ := h
  simp only [Instr.wellFormed, Bool.and_eq_true, decide_eq_true_eq]
  rw [← hstart, ← hlength, ← hfrac]
  exact ⟨⟨BitRange.startBit.read_lt w, BitRange.length.read_lt w⟩, BitRange.fractionalBits.read_lt w⟩

/-- A word with the fields of a command, the reserved ones 0, is the command's word. -/
theorem FieldsAre.encode_eq {w : CmdWord} {i : Instr} (h : FieldsAre w i) : encode i = w := by
  obtain ⟨hrsv0, hrsv1, hrsv2, hop, hbig, hsigned, hstart, hlength, hfrac⟩ := h
  have hw := toNat_eq_sum_of_fields w
  simp only [hrsv0, hrsv1, hrsv2, hop, hbig, hsigned, hstart, hlength, hfrac, BitRange.place_zero,
    Nat.zero_add, Nat.add_zero] at hw
  rw [encode, ← hw, BitVec.ofNat_toNat, BitVec.setWidth_eq]

/-! Legal words and the rows of the opcode table (30_encoding.md R74, R76). -/

theorem op_of_decode {w : CmdWord} {i : Instr} (h : decode w = .ok i) : i.op = BitRange.op.read w := by
  obtain ⟨-, -, -, hop, -⟩ := decode_eq_ok_iff.1 h
  exact hop.symm

theorem exists_decode_ok_iff_not_error (w : CmdWord) :
    (∃ i, decode w = .ok i) ↔ ¬ ∃ e, decode w = .error e := by
  cases decode w <;> simp

/-- The legal words, in terms of their fields: none of the conditions of 30_encoding.md R76. -/
theorem exists_decode_ok_iff (w : CmdWord) :
    (∃ i, decode w = .ok i) ↔
      BitRange.rsv0.read w = 0 ∧ BitRange.rsv1.read w = 0 ∧ BitRange.rsv2.read w = 0 ∧
        BitRange.op.read w < 6 ∧ (BitRange.op.read w ≤ 3 → BitRange.fractionalBits.read w = 0) := by
  rw [exists_decode_ok_iff_not_error, decode_error_iff]
  simp only [not_or, not_and, not_not, not_le]

theorem opcodeRows_op_lt : ∀ row ∈ opcodeRows, row.op < 6 := by decide

theorem opcodeRows_op_injective : ∀ row ∈ opcodeRows, ∀ row' ∈ opcodeRows, row.op = row'.op → row = row' := by
  decide

/-- Every command has its row. -/
theorem Instr.exists_row (i : Instr) :
    ∃ row ∈ opcodeRows, i.op = row.op ∧ i.mnemonic = row.mnemonic := by
  cases i <;> simp [opcodeRows, Instr.op, Instr.mnemonic]

/-- The `op` of a row determines its mnemonic. -/
theorem Instr.mnemonic_of_row {row : OpcodeRow} (hrow : row ∈ opcodeRows) {i : Instr} (h : i.op = row.op) :
    i.mnemonic = row.mnemonic := by
  obtain ⟨row', hrow', hop, hmnemonic⟩ := i.exists_row
  rw [opcodeRows_op_injective row hrow row' hrow' (h.symm.trans hop), hmnemonic]

/-- A row selects the words of its command. -/
theorem OpcodeRow.selects_iff_decode {row : OpcodeRow} (hrow : row ∈ opcodeRows) (w : CmdWord) :
    row.selects w = true ↔ ∃ i, decode w = .ok i ∧ i.op = row.op ∧ i.mnemonic = row.mnemonic := by
  rw [OpcodeRow.selects_fields hrow]
  constructor
  · rintro ⟨hrsv0, hop, hrsv1, hrsv2, hfrac⟩
    have hlt := opcodeRows_op_lt row hrow
    rw [← hop] at hlt hfrac
    obtain ⟨i, hi⟩ := (exists_decode_ok_iff w).2 ⟨hrsv0, hrsv1, hrsv2, hlt, hfrac⟩
    have hiop := (op_of_decode hi).trans hop
    exact ⟨i, hi, hiop, Instr.mnemonic_of_row hrow hiop⟩
  · rintro ⟨i, hi, hop, -⟩
    obtain ⟨hrsv0, hrsv1, hrsv2, -, hfrac⟩ := (exists_decode_ok_iff w).1 ⟨i, hi⟩
    have hread := (op_of_decode hi).symm.trans hop
    rw [hread] at hfrac
    exact ⟨hrsv0, hread, hrsv1, hrsv2, hfrac⟩

/-- The words no row selects are the illegal ones. -/
theorem no_row_selects_iff (w : CmdWord) :
    (∀ row ∈ opcodeRows, row.selects w = false) ↔ ∃ e, decode w = .error e := by
  rw [← not_iff_not, ← exists_decode_ok_iff_not_error]
  simp only [not_forall, Bool.not_eq_false]
  constructor
  · rintro ⟨row, hrow, hselects⟩
    obtain ⟨i, hi, -⟩ := (OpcodeRow.selects_iff_decode hrow w).1 hselects
    exact ⟨i, hi⟩
  · rintro ⟨i, hi⟩
    obtain ⟨row, hrow, hop, hmnemonic⟩ := i.exists_row
    exact ⟨row, hrow, (OpcodeRow.selects_iff_decode hrow w).2 ⟨i, hi, hop, hmnemonic⟩⟩

end Sys2Proof

namespace Sys2Proof.Machine

/-! The status of a legal word (60_exceptions.md R191). -/

/-- What the length check of a command gives (40_bitfield.md R101). -/
def lengthStatus (n : Nat) : Status := if lengthOK n then .ok else .invalidLength

/-- The status of a legal command: the zero test of ENCODE_LINEAR, then the length check; `exec_status` ties it to `exec`. -/
def legalStatus (i : Instr) (s : State) : Status :=
  if i.op = 3 ∧ s.factorIsZero = true then .divisionByZero else lengthStatus i.length

theorem legalStatus_ne_illegalCommand (i : Instr) (s : State) : legalStatus i s ≠ .illegalCommand := by
  unfold legalStatus lengthStatus
  split
  · decide
  · split <;> decide

theorem readCommand_status (be sg : Bool) (sb n : Nat) (f : U64 → U64) (s : State) :
    ∃ frame res, AnswersWith (readCommand be sg sb n f s) s frame (lengthStatus n) res := by
  unfold lengthStatus
  rcases readCommand_cases be sg sb n f s with ⟨hl, h⟩ | ⟨hl, -, h⟩ | ⟨hl, -, h⟩ <;> rw [hl] <;>
    exact ⟨_, _, h⟩

theorem writeCommand_status (be : Bool) (sb n : Nat) (raw : U64) (s : State) :
    ∃ frame res, AnswersWith (writeCommand be sb n raw s) s frame (lengthStatus n) res := by
  unfold lengthStatus
  rcases writeCommand_cases be sb n raw s with ⟨hl, h⟩ | ⟨hl, -, h⟩ | ⟨hl, -, m, -, h⟩ <;> rw [hl] <;>
    exact ⟨_, _, h⟩

/-- Every command answers with the first status that applies. -/
theorem exec_status (i : Instr) (s : State) :
    ∃ frame res, AnswersWith (exec i s) s frame (legalStatus i s) res := by
  cases i with
  | extract be sg sb n => exact readCommand_status be sg sb n _ s
  | store be sg sb n => exact writeCommand_status be sb n _ s
  | decodeLinear be sg sb n => exact readCommand_status be sg sb n _ s
  | encodeLinear be sg sb n =>
    simp only [exec, execEncodeLinear, legalStatus, Instr.op, true_and]
    split
    · exact ⟨s.frame, none, rfl⟩
    · exact writeCommand_status be sb n _ s
  | decodeFixed be sg sb n fb => exact readCommand_status be sg sb n _ s
  | encodeFixed be sg sb n fb => exact writeCommand_status be sb n _ s

/-! The statements. -/

/-- Settles O1: the fields of the encoded word read back (`Laws.EncodedFields.of_op`), and they decide what the decoder answers. -/
theorem decodeOfEncode : Obligations.DecodeOfEncode := fun _ => decode_encode

/-- Settles O2: a word is the sum of its fields, each at its place. -/
theorem encodeOfDecode : Obligations.EncodeOfDecode := fun _ _ h =>
  have hfields := decode_eq_ok_iff.1 h
  ⟨hfields.wellFormed, hfields.encode_eq⟩

/-- Settles O3, condition by condition of `decode_error_iff`. -/
theorem illegalWordsAreThese : Obligations.IllegalWordsAreThese := by
  intro w
  have hop : BitRange.op.read w = (w.extractLsb' 24 3).toNat := BitRange.op.read_eq_extract w
  have hne (r : BitRange) := r.read_ne_zero_iff w
  rw [decode_error_iff, hop]
  exact or_congr (hne .rsv0) (or_congr (hne .rsv1) (or_congr (hne .rsv2)
    (or_congr_right (and_congr_right' (hne .fractionalBits)))))

/-- Settles O4: a row selects by the fields `decode` looks at, and each command has one row. -/
theorem maskAndMatchRows : Obligations.MaskAndMatchRows := fun w =>
  ⟨fun _ hrow => OpcodeRow.selects_iff_decode hrow w, no_row_selects_iff w⟩

/-- Settles O5: the decoder answers the fields of the word. -/
theorem fieldsAsTheyStand : Obligations.FieldsAsTheyStand := by
  intro w i h
  obtain ⟨-, -, -, hop, hbig, hsigned, hstart, hlength, hfrac⟩ := decode_eq_ok_iff.1 h
  have hread (r : BitRange) := r.read_eq_extract w
  exact ⟨hop.symm.trans (hread .op), BitRange.eq_getLsbD_of_read rfl hbig,
    BitRange.eq_getLsbD_of_read rfl hsigned, hstart.symm.trans (hread .startBit),
    hlength.symm.trans (hread .length), hfrac.symm.trans (hread .fractionalBits)⟩

/-- Settles O20: an illegal word raises its error and nothing else; a legal one answers with `legalStatus`. -/
theorem illegalWordAnswered : Obligations.IllegalWordAnswered := by
  refine fun s c rest hhost => ⟨fun ⟨e, he⟩ => step_issue_illegal hhost he, fun i t r hi hstep hresp => ?_⟩
  obtain ⟨frame, res, hexec⟩ := exec_status i (s.accept c rest)
  cases hstep.symm.trans ((stepRunsDecodedCommand s c rest i hhost hi).trans hexec)
  obtain rfl := List.singleton_inj.1 (List.append_cancel_left hresp)
  exact legalStatus_ne_illegalCommand i _

/-- Settles O6, by running the decoder on each word. -/
theorem knownWordsDecode : Obligations.KnownWordsDecode := by
  refine ⟨?_, ?_, ?_, ?_, ?_, ?_, ?_, ?_⟩ <;> decide

end Sys2Proof.Machine
end

/-! SUPPORT. Proofs of the statements of 40_bitfield.md: what EXTRACT answers, what STORE and the other writing commands leave, and that a value stored is the value extracted. -/
namespace Sys2Proof.Machine

/-! The number a field stands for, as 64 bits (40_bitfield.md R102, R107). -/

/-- The unsigned number of a field is its own 64-bit pattern. -/
theorem toNat_ofInt_readAs_unsigned {n u : Nat} (hn : n ≤ 64) (hu : u < 2 ^ n) :
    (BitVec.ofInt 64 (readAs false n u)).toNat = u := by
  have h64 : 2 ^ n ≤ 2 ^ 64 := Nat.pow_le_pow_right (by decide) hn
  simp only [readAs, Bool.false_eq_true, false_and, if_false, BitVec.ofInt_natCast, BitVec.toNat_ofNat]
  exact Nat.mod_eq_of_lt (hu.trans_le h64)

/-- The 64-bit pattern of the signed number of a field, read as a signed integer, is that number. -/
theorem toInt_ofInt_readAs_signed {n u : Nat} (hn1 : 1 ≤ n) (hn : n ≤ 64) (hu : u < 2 ^ n) :
    (BitVec.ofInt 64 (readAs true n u)).toInt = readAs true n u := by
  obtain ⟨hlo, hhi⟩ := readAs_signed_range hn1 hu
  exact toInt_ofInt_of_range hn hn1 hlo hhi

/-- A number in the signed range of `n` bits is its own balanced remainder modulo `2^n`. -/
theorem bmod_eq_of_signed_range {n : Nat} {k : Int} (hn : 1 ≤ n) (hlo : -2 ^ (n - 1) ≤ k)
    (hhi : k < 2 ^ (n - 1)) : k.bmod (2 ^ n) = k := by
  have hpow : ((2 ^ n : Nat) : Int) = 2 * 2 ^ (n - 1) := by
    rw [← pow_succ', Nat.sub_add_cancel hn, Nat.cast_pow, Nat.cast_ofNat]
  exact Int.bmod_eq_of_le_mul_two (by omega) (by omega)

/-- The signed reading of `n` bits is their balanced remainder modulo `2^n`. -/
theorem readAs_signed_eq_bmod {n u : Nat} (hn : 1 ≤ n) (hu : u < 2 ^ n) :
    readAs true n u = (u : Int).bmod (2 ^ n) := by
  obtain ⟨hlo, hhi⟩ := readAs_signed_range hn hu
  rw [← bmod_eq_of_signed_range hn hlo hhi, readAs]
  split
  · exact_mod_cast Int.sub_bmod_right u (2 ^ n)
  · rfl

/-- A number in the signed range of a field is the signed reading of its low bits (40_bitfield.md R119). -/
theorem readAs_signed_low_bits {n : Nat} (hn1 : 1 ≤ n) (hn : n ≤ 64) {v : U64}
    (hrange : inFieldRange true n v.toInt) : readAs true n (v.toNat % 2 ^ n) = v.toInt := by
  obtain ⟨hlo, hhi⟩ := hrange
  calc readAs true n (v.toNat % 2 ^ n)
      = ((v.toNat % 2 ^ n : Nat) : Int).bmod (2 ^ n) :=
        readAs_signed_eq_bmod hn1 (Nat.mod_lt _ (Nat.two_pow_pos n))
    _ = (v.toNat : Int).bmod (2 ^ n) := by rw [Int.natCast_emod, Int.emod_bmod]
    _ = v.toInt.bmod (2 ^ n) := by
        rw [BitVec.toInt_eq_toNat_bmod, Int.bmod_bmod_of_dvd (pow_dvd_pow 2 hn)]
    _ = v.toInt := bmod_eq_of_signed_range hn1 hlo hhi

/-! EXTRACT and STORE of a field that fits (40_bitfield.md R108, R115). -/

theorem exec_extract_fits {be : Bool} (sg : Bool) {sb n : Nat} (s : State) (h : spanOK be sb n = true) :
    exec (.extract be sg sb n) s =
      .next (s.respond .ok (some (BitVec.ofInt 64 (s.fieldNumber be sg sb n)))) :=
  readCommand_fits sg _ s h

theorem exec_store_fits {be : Bool} (sg : Bool) {sb n : Nat} {s : State} (hs : s.inv = true)
    (h : spanOK be sb n = true) :
    ∃ m : Memory, m.wf = true ∧
      m.frame64 = replaceField s.frame.frame64 (spanLo be sb n) n s.port.value ∧
      exec (.store be sg sb n) s = .next ({ s with frame := m }.respond .ok none) :=
  writeCommand_fits s.port.value hs h

/-- STORE and then EXTRACT of one field answer the number that the low bits of `VALUE` stand for. -/
theorem exec_store_extract {be : Bool} (sg : Bool) {sb n : Nat} {s : State} (hs : s.inv = true)
    (h : spanOK be sb n = true) :
    ∃ t u, exec (.store be sg sb n) s = .next t ∧ exec (.extract be sg sb n) t = .next u ∧
      u.responses = s.responses ++
        [⟨.ok, none⟩, ⟨.ok, some (BitVec.ofInt 64 (readAs sg n (s.port.value.toNat % 2 ^ n)))⟩] := by
  obtain ⟨m, -, hm, hstore⟩ := exec_store_fits sg hs h
  refine ⟨_, _, hstore, exec_extract_fits sg _ h, ?_⟩
  simp [State.fieldNumber, hm, fieldValue_replaceField _ _ h]

/-! The frame outside the span of a store (40_bitfield.md R116, R120). -/

section
variable {be : Bool} {sb n : Nat} (h : spanOK be sb n = true)
include h

/-- Replacing a field forgets the bits that were there. -/
theorem replaceField_congr {f f' : U64} (v : U64)
    (hff : ∀ p : Nat, p < 64 → (p : Int) < spanLo be sb n ∨ spanHi be sb n < (p : Int) →
      f.getLsbD p = f'.getLsbD p) :
    replaceField f (spanLo be sb n) n v = replaceField f' (spanLo be sb n) n v := by
  refine BitVec.eq_of_getLsbD_eq fun p hp => ?_
  rw [replaceField_bit f v h hp, replaceField_bit f' v h hp]
  split
  · rfl
  · refine hff p hp ?_
    rw [spanHi_eq]
    omega

theorem writeCommand_spares {raw : U64} {s t : State} (hs : s.inv = true)
    (hrun : writeCommand be sb n raw s = .next t) {p : Nat} (hp : p < 64)
    (hout : (p : Int) < spanLo be sb n ∨ spanHi be sb n < (p : Int)) :
    t.frame.frame64.getLsbD p = s.frame.frame64.getLsbD p := by
  obtain ⟨m, -, hm, hnext⟩ := writeCommand_fits raw hs h
  cases hrun.symm.trans hnext
  rw [spanHi_eq] at hout
  rw [State.respond_frame, hm, replaceField_bit _ _ h hp, if_neg (by omega)]

/-- The frame a STORE leaves depends on the earlier one only through the bits outside the span. -/
theorem exec_store_frame_congr {sg : Bool} {s s' t t' : State} (hs : s.inv = true) (hs' : s'.inv = true)
    (hvalue : s.port.value = s'.port.value)
    (hframe : ∀ p : Nat, p < 64 → (p : Int) < spanLo be sb n ∨ spanHi be sb n < (p : Int) →
      s.frame.frame64.getLsbD p = s'.frame.frame64.getLsbD p)
    (ht : exec (.store be sg sb n) s = .next t) (ht' : exec (.store be sg sb n) s' = .next t') :
    t.frame = t'.frame := by
  obtain ⟨m, hwf, hm, hrun⟩ := exec_store_fits sg hs h
  obtain ⟨m', hwf', hm', hrun'⟩ := exec_store_fits sg hs' h
  obtain rfl : m = m' := Memory.eq_of_frame64 hwf hwf'
    (by rw [hm, hm', ← hvalue, replaceField_congr h _ hframe])
  cases ht.symm.trans hrun
  cases ht'.symm.trans hrun'
  rfl

end

/-- A writing command whose field fits leaves every frame bit outside its span, an ENCODE_LINEAR with a zero `FACTOR` the whole frame. -/
theorem exec_writer_spares {i : Instr} {s t : State} (hw : i.writes = true) (hs : s.inv = true)
    (hfit : spanPremise i = true) (hexec : exec i s = .next t) {p : Nat} (hp : p < 64)
    (hout : (p : Int) < spanLo i.bigEndian i.startBit i.length ∨
      spanHi i.bigEndian i.startBit i.length < (p : Int)) :
    t.frame.frame64.getLsbD p = s.frame.frame64.getLsbD p := by
  cases i with
  | extract | decodeLinear | decodeFixed => cases hw
  | store be sg sb n => exact writeCommand_spares hfit hs hexec hp hout
  | encodeFixed be sg sb n fb => exact writeCommand_spares hfit hs hexec hp hout
  | encodeLinear be sg sb n =>
    simp only [exec, execEncodeLinear] at hexec
    split at hexec
    · cases hexec
      rfl
    · exact writeCommand_spares hfit hs hexec hp hout

/-- Two canonical frames that agree on the bits of a byte agree on the byte; no byte above address 7 has bits in `FRAME64`. -/
theorem Memory.byteAt_eq_of_bits {m m' : Memory} (hwf : m.wf = true) (hwf' : m'.wf = true) {a : Nat}
    (hbits : ∀ p : Nat, p < 64 → p / 8 = a → m.frame64.getLsbD p = m'.frame64.getLsbD p) :
    m.byteAt a = m'.byteAt a := by
  rcases Nat.lt_or_ge a 8 with ha | ha
  · refine BitVec.eq_of_getLsbD_eq fun k hk => ?_
    have hp : 8 * a + k < 64 := by omega
    have hdiv : (8 * a + k) / 8 = a := by omega
    have hmod : (8 * a + k) % 8 = k := by omega
    have hbit := hbits _ hp hdiv
    rwa [Memory.frame64_bit m hp, Memory.frame64_bit m' hp, hdiv, hmod] at hbit
  · rw [Memory.byteAt_above hwf ha, Memory.byteAt_above hwf' ha]

/-! The statements. -/

/-- Settles O28, by the two ways a reading command ends that the statement names. -/
theorem extractAnswersTheField : Obligations.ExtractAnswersTheField := fun s be sg sb _ =>
  ⟨exec_extract_fits sg s, readCommand_badLength be sg sb _ s⟩

/-- Settles O30: the field's number fits in 64 bits, and above the field its pattern repeats bit `length-1`. -/
theorem signExtensionGivesTheNumber : Obligations.SignExtensionGivesTheNumber := by
  intro s be sb n h
  obtain ⟨hn1, hn, -, -⟩ := span_bounds h
  have hu := fieldValue_lt s.frame.frame64 (spanLo be sb n) n
  refine ⟨⟨_, _, exec_extract_fits true s h, rfl, toInt_ofInt_readAs_signed hn1 hn hu, fun k hk hk64 => ?_⟩,
    ⟨_, _, exec_extract_fits false s h, rfl, toNat_ofInt_readAs_unsigned hn hu⟩⟩
  rw [fieldNumber_bit s true h hk64, if_neg (by omega), fieldNumber_bit s true h (by omega),
    if_pos (by omega), Bool.true_and]

/-- Settles O32: the bits by `exec_writer_spares`, a byte by its eight bits, the rest by `exec_ends`. -/
theorem writingCommandsFrame : Obligations.WritingCommandsFrame := by
  intro i s t hw hs hfit hexec
  have hspares {p : Nat} := exec_writer_spares (p := p) hw hs hfit hexec
  obtain ⟨frame, st, res, hrun, hends⟩ := exec_ends i s
  cases hexec.symm.trans hrun
  refine ⟨fun p hp hout => ?_, fun a ha => ?_, rfl, rfl, ⟨st, res⟩, rfl⟩
  · rw [← Memory.frame64_bit _ hp, ← Memory.frame64_bit _ hp]
    exact hspares hp hout
  · exact Memory.byteAt_eq_of_bits (hends.wf hs) hs fun p hp hpa => hspares hp (by omega)

/-- Settles O33, by the bits of one store step and by `storeWalk_other`. -/
theorem storeStepTouchesOnlyItsBits : Obligations.StoreStepTouchesOnlyItsBits := by
  refine ⟨fun v c byte k hk _ hout => ?_, fun v be sb n m m' a hwf h hrun hother => ?_⟩
  · rw [storeByte_bit v byte hk, if_neg (by omega)]
  · exact storeWalk_other hwf (chunks_tiles h).ok hrun hother

/-- Settles O34, by the two ways a writing command ends that the statement names. -/
theorem storeReplacesTheField : Obligations.StoreReplacesTheField := fun s be sg sb _ =>
  ⟨exec_store_fits sg, writeCommand_badLength be sb _ s⟩

/-- Settles O35: the second half is `exec_store_frame_congr`, and the first is its case of a frame and that frame after the STORE. -/
theorem storeIsIdempotent : Obligations.StoreIsIdempotent := by
  refine fun be sg sb n h => ⟨fun s t u hs ht hu => ?_, fun s s' t t' => exec_store_frame_congr h⟩
  obtain ⟨m, hwf, -, hrun⟩ := exec_store_fits sg hs h
  cases ht.symm.trans hrun
  have hinv : ({ s with frame := m }.respond .ok none).inv = true := hwf
  exact exec_store_frame_congr h hinv hs rfl (fun _ => writeCommand_spares h hs ht) hu ht

/-- Settles O38: an unsigned value below `2^length` is its own low bits. -/
theorem roundTripUnsigned : Obligations.RoundTripUnsigned := by
  intro s be sb n hs h hlt
  obtain ⟨-, hn, -, -⟩ := span_bounds h
  have hvalue : BitVec.ofInt 64 (readAs false n (s.port.value.toNat % 2 ^ n)) = s.port.value := by
    rw [Nat.mod_eq_of_lt hlt]
    exact BitVec.eq_of_toNat_eq (toNat_ofInt_readAs_unsigned hn hlt)
  have hround := exec_store_extract false hs h
  rwa [hvalue] at hround

/-- Settles O39: what comes back is the signed reading of the low bits, the value itself by `readAs_signed_low_bits`. -/
theorem roundTripSigned : Obligations.RoundTripSigned := by
  intro s be sb n hs h
  obtain ⟨hn1, hn, -, -⟩ := span_bounds h
  obtain ⟨t, u, ht, hu, hresp⟩ := exec_store_extract true hs h
  have hv := toInt_ofInt_readAs_signed hn1 hn (Nat.mod_lt s.port.value.toNat (Nat.two_pow_pos n))
  exact ⟨t, u, _, ht, hu, hresp, hv, fun hrange =>
    BitVec.eq_of_toInt_eq (hv.trans (readAs_signed_low_bits hn1 hn hrange))⟩

/-- Settles O36: no writing command's meaning reads `isSigned`. -/
theorem writersIgnoreIsSigned : Obligations.WritersIgnoreIsSigned := fun _ _ _ _ _ _ _ =>
  ⟨rfl, rfl, rfl⟩

end Sys2Proof.Machine

/-! SUPPORT. Proofs of the statements of 41_physical.md: exact conversions, infinities and NaNs, and what DECODE_LINEAR and ENCODE_LINEAR answer. -/
namespace Sys2Proof.Machine

/-! Numbers that binary64 represents, and roundings of them (41_physical.md R141). -/

theorem Fp.abs_toRat_fin (neg : Bool) (m : Nat) (e : Int) : |(Fp.fin neg m e).toRat| = m * 2 ^ e := by
  have hsign : |(if neg then -1 else 1 : ℚ)| = 1 := by cases neg <;> simp
  rw [Fp.toRat, mul_assoc, abs_mul, hsign, one_mul, abs_of_nonneg (by positivity)]

/-- Every finite pattern lies below the magnitude from which a rounding overflows. -/
theorem Fp.abs_toRat_ofBits_lt (w : F64) : |(Fp.ofBits w).toRat| < 2 ^ 1024 - 2 ^ 970 := by
  have hcan := Fp.ofBits_canonical w
  generalize Fp.ofBits w = x at hcan
  cases x with
  | nan | inf _ =>
    simp only [Fp.toRat, abs_zero]
    exact lt_trans (by positivity) two_pow_1023_lt_overflowBound
  | fin neg m e =>
    have hform := Fp.canonical_fin hcan
    have hm : m + 1 ≤ 2 ^ 53 := by omega
    have hmq : (m : ℚ) + 1 ≤ 2 ^ 53 := by exact_mod_cast hm
    have he : (2 : ℚ) ^ e ≤ 2 ^ (971 : Int) := zpow_le_zpow_right₀ one_le_two (by omega)
    rw [Fp.abs_toRat_fin, overflowBound_eq]
    calc (m : ℚ) * 2 ^ e ≤ m * 2 ^ (971 : Int) := mul_le_mul_of_nonneg_left he m.cast_nonneg
      _ < (2 ^ 53 - 1 / 2) * 2 ^ (971 : Int) :=
        mul_lt_mul_of_pos_right (by linarith only [hmq]) (by positivity)

theorem Fp.isNearest.finite {z : Fp} {v : ℚ} (h : z.isNearest v) (hv : |v| < 2 ^ 1024 - 2 ^ 970) :
    z.finite = true := by
  cases z with
  | nan => exact h.2.elim
  | inf neg => exact absurd hv (not_lt.2 h.2.1)
  | fin neg m e => rfl

/-- A rounding of a number that a pattern represents is that number. -/
theorem Fp.isNearest.toRat_eq {z : Fp} {v : ℚ} (h : z.isNearest v) {w : F64}
    (hw : (Fp.ofBits w).finite = true) (hv : (Fp.ofBits w).toRat = v) : z.finite = true ∧ z.toRat = v := by
  subst hv
  have hfin := h.finite (Fp.abs_toRat_ofBits_lt w)
  obtain ⟨neg, m, e, rfl⟩ := Fp.exists_fin_of_finite hfin
  obtain ⟨-, -, hnearest⟩ := h
  have hdist := (hnearest w hw).1
  rw [sub_self, abs_zero, abs_nonpos_iff, sub_eq_zero] at hdist
  exact ⟨hfin, hdist⟩

/-- A magnitude below `2^53` is represented: shifted up until its highest bit is bit 52. -/
theorem Fp.exists_canonical_nat {m : Nat} (hm : m < 2 ^ 53) (neg : Bool) :
    ∃ n e, (Fp.fin neg n e).canonical = true ∧ (n : ℚ) * 2 ^ e = m := by
  rcases Nat.eq_zero_or_pos m with rfl | hpos
  · exact ⟨0, Fp.eMin, Fp.zero_canonical neg, by simp⟩
  · have hlog : m.log2 ≤ 52 := Nat.le_of_lt_succ ((Nat.log2_lt hpos.ne').2 hm)
    obtain ⟨k, hk⟩ := Nat.exists_eq_add_of_le hlog
    have hlo : 2 ^ 52 ≤ m * 2 ^ k := by
      rw [hk, pow_add]
      exact Nat.mul_le_mul_right _ (Nat.log2_self_le hpos.ne')
    have hhi : m * 2 ^ k < 2 ^ 53 := by
      rw [show 53 = m.log2 + 1 + k by omega, pow_add]
      exact Nat.mul_lt_mul_of_pos_right Nat.lt_log2_self (Nat.two_pow_pos k)
    refine ⟨m * 2 ^ k, -k, ?_, ?_⟩
    · simp only [Fp.canonical, Bool.or_eq_true, Bool.and_eq_true, decide_eq_true_eq]
      omega
    · rw [Nat.cast_mul, Nat.cast_pow, Nat.cast_ofNat, zpow_neg, zpow_natCast,
        mul_inv_cancel_right₀ (by positivity)]

/-- An integer of at most 53 bits, or `2^53` itself, is the value of a pattern (41_physical.md R141). -/
theorem Fp.exists_bits_int {i : Int} (hi : |i| ≤ 2 ^ 53) :
    ∃ w : F64, (Fp.ofBits w).finite = true ∧ (Fp.ofBits w).toRat = i := by
  obtain ⟨n, e, hcan, hval⟩ : ∃ n e, (Fp.fin (decide (i < 0)) n e).canonical = true ∧
      (n : ℚ) * 2 ^ e = i.natAbs := by
    rw [Int.abs_eq_natAbs] at hi
    have habs : i.natAbs ≤ 2 ^ 53 := by exact_mod_cast hi
    rcases habs.lt_or_eq with hlt | heq
    · exact Fp.exists_canonical_nat hlt _
    · exact ⟨2 ^ 52, 1, rfl, by norm_num [heq]⟩
  obtain ⟨w, hw⟩ := Fp.exists_bits hcan Fp.noConfusion
  refine ⟨w, by rw [hw]; rfl, ?_⟩
  rw [hw, Fp.toRat, mul_assoc, hval, ← signed_cast, signed_natAbs]

theorem Fp.ofInt_exact {i : Int} (hi : |i| ≤ 2 ^ 53) :
    (Fp.ofInt i).finite = true ∧ (Fp.ofInt i).toRat = (i : ℚ) := by
  obtain ⟨w, hfin, hval⟩ := Fp.exists_bits_int hi
  exact (Fp.ofInt_isNearest i).toRat_eq hfin hval

/-- The number a pattern of `n` bits stands for is at most `2^n` in magnitude (40_bitfield.md R102). -/
theorem abs_readAs_le (sg : Bool) {n u : Nat} (hu : u < 2 ^ n) : |readAs sg n u| ≤ 2 ^ n := by
  have hcast : (u : Int) < 2 ^ n := by exact_mod_cast hu
  rw [abs_le, readAs]
  split <;> constructor <;> omega

/-- The number of a field converts to a finite value. -/
theorem Fp.ofInt_fieldNumber_finite (s : State) {be : Bool} (sg : Bool) {sb n : Nat}
    (h : spanOK be sb n = true) : (Fp.ofInt (s.fieldNumber be sg sb n)).finite = true := by
  obtain ⟨-, hn, -, -⟩ := span_bounds h
  refine (Fp.ofInt_isNearest _).finite (lt_of_le_of_lt ?_ two_pow_1023_lt_overflowBound)
  calc |((s.fieldNumber be sg sb n : Int) : ℚ)| ≤ 2 ^ n := by
        exact_mod_cast abs_readAs_le sg (fieldValue_lt s.frame.frame64 (spanLo be sb n) n)
    _ = 2 ^ (n : Int) := (zpow_natCast _ _).symm
    _ ≤ 2 ^ (1023 : Int) := zpow_le_zpow_right₀ one_le_two (by omega)

/-! A zero among the operands. -/

theorem Fp.isZero_iff {x : Fp} : x.isZero = true ↔ x.finite = true ∧ x.toRat = 0 := by
  cases x with
  | nan | inf _ => simp [Fp.isZero, Fp.finite]
  | fin neg m e => cases neg <;> simp [Fp.isZero, Fp.finite, Fp.toRat, zpow_ne_zero]

/-- A finite number times a zero is a zero, its sign left aside. -/
theorem Fp.mul_isZero {x y : Fp} (hx : x.finite = true) (hy : y.isZero = true) :
    (x.mul y).isZero = true := by
  obtain ⟨hyfin, hyval⟩ := Fp.isZero_iff.1 hy
  have hnearest := Fp.mul_isNearest hx hyfin
  rw [hyval, mul_zero] at hnearest
  obtain ⟨hfin, hval⟩ := Fp.isZero_iff.1 ((Fp.isZero_ofBits_iff 0).2 (.inl rfl))
  exact Fp.isZero_iff.2 (hnearest.toRat_eq hfin hval)

/-- A zero plus a finite pattern is the number of that pattern. -/
theorem Fp.add_of_isZero {x : Fp} {w : F64} (hx : x.isZero = true) (hw : (Fp.ofBits w).finite = true) :
    (x.add (Fp.ofBits w)).finite = true ∧ (x.add (Fp.ofBits w)).toRat = (Fp.ofBits w).toRat := by
  obtain ⟨hxfin, hxval⟩ := Fp.isZero_iff.1 hx
  have hnearest := Fp.add_isNearest hxfin hw
  rw [hxval, zero_add] at hnearest
  exact hnearest.toRat_eq hw rfl

/-! Infinities, NaNs and zero divisors, by the kinds of the operands (log entry 18). -/

theorem Fp.nan_ops (y : Fp) :
    Fp.nan.add y = .nan ∧ Fp.nan.sub y = .nan ∧ Fp.nan.mul y = .nan ∧ Fp.nan.div y = .nan :=
  ⟨rfl, rfl, rfl, rfl⟩

theorem Fp.ops_nan (x : Fp) :
    x.add .nan = .nan ∧ x.sub .nan = .nan ∧ x.mul .nan = .nan ∧ x.div .nan = .nan := by
  cases x <;> exact ⟨rfl, rfl, rfl, rfl⟩

theorem Fp.inf_ops_inf (a b : Bool) :
    (Fp.inf a).add (.inf b) = (if a = b then .inf a else .nan) ∧
      (Fp.inf a).sub (.inf b) = (if a = b then .nan else .inf a) ∧
      (Fp.inf a).mul (.inf b) = .inf (a ^^ b) ∧ (Fp.inf a).div (.inf b) = .nan := by
  cases a <;> cases b <;> exact ⟨rfl, rfl, rfl, rfl⟩

theorem Fp.inf_ops_finite (a : Bool) {y : Fp} (hy : y.finite = true) :
    (Fp.inf a).add y = .inf a ∧ (Fp.inf a).sub y = .inf a ∧
      (Fp.inf a).mul y = (if y.isZero then .nan else .inf (a ^^ y.isNeg)) ∧
      (Fp.inf a).div y = .inf (a ^^ y.isNeg) := by
  obtain ⟨b, n, f, rfl⟩ := Fp.exists_fin_of_finite hy
  cases n <;> exact ⟨rfl, rfl, rfl, rfl⟩

theorem Fp.finite_ops_inf {x : Fp} (hx : x.finite = true) (b : Bool) :
    x.add (.inf b) = .inf b ∧ x.sub (.inf b) = .inf (!b) ∧
      x.mul (.inf b) = (if x.isZero then .nan else .inf (x.isNeg ^^ b)) ∧
      x.div (.inf b) = Fp.zero (x.isNeg ^^ b) := by
  obtain ⟨a, m, e, rfl⟩ := Fp.exists_fin_of_finite hx
  refine ⟨rfl, rfl, ?_, rfl⟩
  rw [Bool.xor_comm]
  cases m <;> rfl

theorem Fp.finite_div_zero {x y : Fp} (hx : x.finite = true) (hy : y.isZero = true) :
    x.div y = if x.isZero then .nan else .inf (x.isNeg ^^ y.isNeg) := by
  obtain ⟨a, m, e, rfl⟩ := Fp.exists_fin_of_finite hx
  obtain ⟨b, n, f, rfl⟩ := Fp.exists_fin_of_finite (Fp.isZero_iff.1 hy).1
  obtain rfl : n = 0 := by simpa [Fp.isZero] using hy
  cases m <;> rfl

/-! Reading a field as a number (41_physical.md R142, 42_fixedpoint.md R162). -/

theorem exec_decodeLinear_fits {be : Bool} (sg : Bool) {sb n : Nat} (s : State) (h : spanOK be sb n = true) :
    exec (.decodeLinear be sg sb n) s =
      .next (s.respond .ok (some (s.resultBits
        (((Fp.ofInt (s.fieldNumber be sg sb n)).mul (Fp.ofBits s.port.factor)).add
          (Fp.ofBits s.port.offset))))) := by
  rw [← raw2f_field s sg h]
  exact readCommand_fits sg _ s h

theorem exec_decodeFixed_fits {be : Bool} (sg : Bool) {sb n : Nat} (fb : Nat) (s : State)
    (h : spanOK be sb n = true) :
    exec (.decodeFixed be sg sb n fb) s =
      .next (s.respond .ok (some (s.resultBits
        ((Fp.ofInt (s.fieldNumber be sg sb n)).div (Fp.pow2 fb))))) := by
  rw [← raw2f_field s sg h]
  exact readCommand_fits sg _ s h

/-- The pattern DECODE_LINEAR answers reads as the value computed, NaN or not (93_implementation_defined.md U4). -/
theorem exec_decodeLinear_reads {be : Bool} (sg : Bool) {sb n : Nat} (s : State) (h : spanOK be sb n = true) :
    ∃ v, exec (.decodeLinear be sg sb n) s = .next (s.respond .ok (some v)) ∧
      Fp.ofBits v = ((Fp.ofInt (s.fieldNumber be sg sb n)).mul (Fp.ofBits s.port.factor)).add
        (Fp.ofBits s.port.offset) :=
  ⟨_, exec_decodeLinear_fits sg s h, s.ofBits_resultBits (Fp.add_canonical _ _)⟩

theorem exec_decodeFixed_reads {be : Bool} (sg : Bool) {sb n : Nat} (fb : Nat) (s : State)
    (h : spanOK be sb n = true) :
    ∃ v, exec (.decodeFixed be sg sb n fb) s = .next (s.respond .ok (some v)) ∧
      Fp.ofBits v = (Fp.ofInt (s.fieldNumber be sg sb n)).div (Fp.pow2 fb) :=
  ⟨_, exec_decodeFixed_fits sg fb s h, s.ofBits_resultBits (Fp.div_canonical _ _)⟩

/-! ENCODE_LINEAR, by its `FACTOR` (41_physical.md R144, R146). -/

theorem exec_encodeLinear_zero (be sg : Bool) (sb n : Nat) {s : State} (h : zeroFactor s.port) :
    exec (.encodeLinear be sg sb n) s = .next (s.respond .divisionByZero none) :=
  if_pos (s.factorIsZero_iff.2 h)

theorem exec_encodeLinear_nonzero (be sg : Bool) (sb n : Nat) {s : State} (h : ¬ zeroFactor s.port) :
    exec (.encodeLinear be sg sb n) s = writeCommand be sb n (s.f2raw s.linearQuotient) s :=
  if_neg (mt s.factorIsZero_iff.1 h)

theorem legalStatus_eq_divisionByZero_iff (i : Instr) (s : State) :
    legalStatus i s = .divisionByZero ↔ i.op = 3 ∧ zeroFactor s.port := by
  have hlength : lengthStatus i.length ≠ .divisionByZero := by
    unfold lengthStatus
    split <;> decide
  rw [legalStatus, ← s.factorIsZero_iff]
  split
  · next h => exact iff_of_true rfl h
  · next h => exact iff_of_false hlength h

theorem Instr.eq_encodeLinear_of_op {i : Instr} (h : i.op = 3) :
    ∃ be sg sb n, i = .encodeLinear be sg sb n := by
  cases i with
  | encodeLinear be sg sb n => exact ⟨be, sg, sb, n, rfl⟩
  | extract | store | decodeLinear | decodeFixed | encodeFixed => cases h

/-! The number in a field just written. -/

/-- A number in the range of a field is what the low bits of its 64-bit pattern stand for (40_bitfield.md R118, R119). -/
theorem readAs_low_bits_of_range {sg : Bool} {n : Nat} {k : Int} (hn1 : 1 ≤ n) (hn : n ≤ 64)
    (hrange : inFieldRange sg n k) : readAs sg n ((BitVec.ofInt 64 k).toNat % 2 ^ n) = k := by
  cases sg with
  | true =>
    have hk := toInt_ofInt_of_range hn hn1 hrange.1 hrange.2
    rw [readAs_signed_low_bits hn1 hn (by rwa [hk]), hk]
  | false =>
    obtain ⟨u, rfl⟩ := Int.eq_ofNat_of_zero_le hrange.1
    have hu : u < 2 ^ n := by exact_mod_cast hrange.2
    have hpattern := toNat_ofInt_readAs_unsigned hn hu
    have hread (v : Nat) : readAs false n v = v := by simp [readAs]
    rw [hread] at hpattern ⊢
    rw [hpattern, Nat.mod_eq_of_lt hu]

/-! The statements. -/

/-- Settles O22: the zero test comes first, and no other check of any command gives this status. -/
theorem divisionByZeroExactlyWhen : Obligations.DivisionByZeroExactlyWhen := by
  refine ⟨fun s be sg sb n h => exec_encodeLinear_zero be sg sb n h, fun i s t r hexec hresp hst => ?_⟩
  obtain ⟨frame, res, hrun⟩ := exec_status i s
  cases hexec.symm.trans hrun
  obtain rfl := List.singleton_inj.1 (List.append_cancel_left hresp)
  obtain ⟨hop, hzero⟩ := (legalStatus_eq_divisionByZero_iff i s).1 hst
  exact ⟨Instr.eq_encodeLinear_of_op hop, hzero⟩

/-- Settles O41: such an integer is the value of a pattern, and rounding leaves it. -/
theorem smallIntegersConvertExactly : Obligations.SmallIntegersConvertExactly := fun _ => Fp.ofInt_exact

/-- Settles O44, by the kinds of the two operands. -/
theorem infinitiesAndNaNs : Obligations.InfinitiesAndNaNs := by
  intro v w x y
  refine ⟨?_, fun a b hx hy => ?_, fun a hx hy => ?_, fun b hx hy => ?_, Fp.finite_div_zero⟩
  · rintro (hx | hy)
    · rw [hx]
      exact Fp.nan_ops y
    · rw [hy]
      exact Fp.ops_nan x
  · rw [hx, hy]
    exact Fp.inf_ops_inf a b
  · rw [hx]
    exact Fp.inf_ops_finite a hy
  · rw [hy]
    exact Fp.finite_ops_inf hx b

/-- Settles O46, by the two ways a reading command ends that the statement names. -/
theorem decodeLinearAnswers : Obligations.DecodeLinearAnswers := fun s be sg sb _ =>
  ⟨exec_decodeLinear_fits sg s, readCommand_badLength be sg sb _ s⟩

/-- Settles O47: a sum and a quotient are in the form in which a pattern reads back (`State.ofBits_resultBits`). -/
theorem decodedPatternReadsAsComputed : Obligations.DecodedPatternReadsAsComputed := by
  intro s be sg sb n fb h _
  obtain ⟨v, hlinear, hv⟩ := exec_decodeLinear_reads sg s h
  obtain ⟨w, hfixed, hw⟩ := exec_decodeFixed_reads sg fb s h
  exact ⟨⟨_, v, hlinear, rfl, hv⟩, ⟨_, w, hfixed, rfl, hw⟩⟩

/-- Settles O48: the product is a zero, and a zero added to `OFFSET` leaves its number. -/
theorem zeroFactorDecodesToOffset : Obligations.ZeroFactorDecodesToOffset := by
  intro s be sg sb n h hzero hoffset
  obtain ⟨v, hrun, hv⟩ := exec_decodeLinear_reads sg s h
  have hproduct := Fp.mul_isZero (Fp.ofInt_fieldNumber_finite s sg h) (s.factorIsZero_iff.2 hzero)
  refine ⟨_, v, hrun, rfl, ?_⟩
  rw [hv]
  exact Fp.add_of_isZero hproduct hoffset

/-- Settles O49: the zero test, then the length check, then the store of the converted quotient. -/
theorem encodeLinearStores : Obligations.EncodeLinearStores := by
  intro s be sg sb n
  refine ⟨fun hfactor hs h => ?_, fun hfactor hbad => ?_, exec_encodeLinear_zero be sg sb n⟩
  · obtain ⟨m, hwf, hm, hrun⟩ := writeCommand_fits (s.f2raw s.linearQuotient) hs h
    refine ⟨m, _, hwf, hm, (exec_encodeLinear_nonzero be sg sb n hfactor).trans hrun, fun neg mant e hq => ?_⟩
    rw [State.linearQuotient, State.valueFp, State.offsetFp, State.factorFp, hq]
    exact s.f2raw_fin neg mant e
  · exact (exec_encodeLinear_nonzero be sg sb n hfactor).trans (writeCommand_badLength be sb _ s hbad)

/-- Settles O50: the field then holds the low bits of the truncation, which in range stand for it. -/
theorem linearDecodeAfterEncode : Obligations.LinearDecodeAfterEncode := by
  intro s be sg sb n neg mant e hs h hfactor hq hrange
  obtain ⟨hn1, hn, -, -⟩ := span_bounds h
  obtain ⟨m, raw, -, hm, hencode, hraw⟩ := (encodeLinearStores s be sg sb n).1 hfactor hs h
  obtain rfl := hraw neg mant e hq
  obtain ⟨v, hdecode, hv⟩ := exec_decodeLinear_reads sg
    ⟨m, s.host, s.port, s.responses ++ [⟨.ok, none⟩], s.draws + 1⟩ h
  rw [State.fieldNumber, hm, fieldValue_replaceField _ _ h, readAs_low_bits_of_range hn1 hn hrange] at hv
  exact ⟨_, _, v, hencode, hdecode, List.append_assoc _ _ _, hv⟩

end Sys2Proof.Machine

/-! SUPPORT. Proofs of the statements of 42_fixedpoint.md: the scale, when scaling by it is exact, and what DECODE_FIXED and ENCODE_FIXED answer. -/
namespace Sys2Proof.Machine

/-! The scale, and numbers that binary64 represents (42_fixedpoint.md R161). -/

/-- Multiplying by a power of two moves the exponent only. -/
theorem Fp.toRat_fin_mul_zpow (neg : Bool) (m : Nat) (e j : Int) :
    (Fp.fin neg m e).toRat * 2 ^ j = (Fp.fin neg m (e + j)).toRat := by
  rw [Fp.toRat, Fp.toRat, zpow_add₀ two_ne_zero, ← mul_assoc]

theorem Fp.pow2_finite {k : Nat} (hk : k < 64) : (Fp.pow2 k).finite = true := by
  rw [Fp.pow2_eq_fin hk]
  rfl

theorem Fp.pow2_toRat {k : Nat} (hk : k < 64) : (Fp.pow2 k).toRat = 2 ^ k := by
  rw [Fp.pow2_eq_fin hk, sub_eq_add_neg, add_comm, ← Fp.toRat_fin_mul_zpow, zpow_natCast]
  norm_num [Fp.toRat]

theorem Fp.exists_bits_of_canonical {neg : Bool} {m : Nat} {e : Int} (h : (Fp.fin neg m e).canonical = true) :
    ∃ w : F64, (Fp.ofBits w).finite = true ∧ (Fp.ofBits w).toRat = (Fp.fin neg m e).toRat := by
  obtain ⟨w, hw⟩ := Fp.exists_bits h Fp.noConfusion
  exact ⟨w, by rw [hw]; rfl, by rw [hw]⟩

/-- A significand of at most 53 bits at an exponent the format has is represented when it is no overflow: doubled until it is in canonical form. -/
theorem Fp.exists_bits_dyadic (neg : Bool) {m : Nat} {e : Int} (hm : m < 2 ^ 53) (he : -1074 ≤ e)
    (hlt : |(Fp.fin neg m e).toRat| < 2 ^ 1024) :
    ∃ w : F64, (Fp.ofBits w).finite = true ∧ (Fp.ofBits w).toRat = (Fp.fin neg m e).toRat := by
  obtain ⟨j, hj⟩ := Int.eq_ofNat_of_zero_le (show 0 ≤ e + 1074 by omega)
  induction j generalizing m e with
  | zero =>
    refine Fp.exists_bits_of_canonical ?_
    simp only [Fp.canonical, Bool.or_eq_true, Bool.and_eq_true, decide_eq_true_eq]
    omega
  | succ j ih =>
    rcases Nat.lt_or_ge m (2 ^ 52) with hsmall | hlarge
    · have hdouble : (Fp.fin neg (2 * m) (e - 1)).toRat = (Fp.fin neg m e).toRat := by
        rw [sub_eq_add_neg, ← Fp.toRat_fin_mul_zpow, Fp.toRat, Fp.toRat]
        push_cast
        ring
      rw [← hdouble] at hlt ⊢
      exact ih (by omega) (by omega) hlt (by omega)
    · refine Fp.exists_bits_of_canonical ?_
      have hexp : (2 : ℚ) ^ (52 + e) < 2 ^ (1024 : Int) := by
        calc (2 : ℚ) ^ (52 + e) = 2 ^ 52 * 2 ^ e := by rw [zpow_add₀ two_ne_zero]; rfl
          _ ≤ m * 2 ^ e := by gcongr; exact_mod_cast hlarge
          _ < 2 ^ 1024 := by rwa [Fp.abs_toRat_fin] at hlt
      have hlog := (zpow_lt_zpow_iff_right₀ one_lt_two).1 hexp
      simp only [Fp.canonical, Bool.or_eq_true, Bool.and_eq_true, decide_eq_true_eq]
      omega

/-! Scaling is exact (42_fixedpoint.md R164, R168). -/

/-- Scaling a pattern up is exact unless it overflows. -/
theorem Fp.mul_pow2_exact {w : F64} (hw : (Fp.ofBits w).finite = true) {k : Nat} (hk : k < 64)
    (hlt : |(Fp.ofBits w).toRat * 2 ^ k| < 2 ^ 1024) :
    ((Fp.ofBits w).mul (Fp.pow2 k)).finite = true ∧
      ((Fp.ofBits w).mul (Fp.pow2 k)).toRat = (Fp.ofBits w).toRat * 2 ^ k := by
  have hnearest := Fp.mul_isNearest hw (Fp.pow2_finite hk)
  have hcan := Fp.ofBits_canonical w
  rw [Fp.pow2_toRat hk] at hnearest
  obtain ⟨neg, m, e, hx⟩ := Fp.exists_fin_of_finite hw
  rw [hx] at hnearest hcan hlt ⊢
  have hform := Fp.canonical_fin hcan
  rw [← zpow_natCast, Fp.toRat_fin_mul_zpow] at hnearest hlt ⊢
  obtain ⟨b, hfin, hval⟩ := Fp.exists_bits_dyadic neg (by omega) (by omega) hlt
  exact hnearest.toRat_eq hfin hval

/-- With at most 53 bits, only an exponent above -53 reaches the number 1. -/
theorem exponent_gt_of_one_le {m : Nat} {e : Int} (hm : m < 2 ^ 53) (hone : (1 : ℚ) ≤ m * 2 ^ e) : -53 < e := by
  have hpow : (2 : ℚ) ^ (0 : Int) < 2 ^ (53 + e) := by
    calc (2 : ℚ) ^ (0 : Int) = 1 := zpow_zero 2
      _ ≤ m * 2 ^ e := hone
      _ < 2 ^ 53 * 2 ^ e := mul_lt_mul_of_pos_right (by exact_mod_cast hm) (by positivity)
      _ = 2 ^ (53 + e) := by rw [zpow_add₀ two_ne_zero]; rfl
  have hexp := (zpow_lt_zpow_iff_right₀ one_lt_two).1 hpow
  omega

/-- A pattern scaled down stays below every overflow. -/
theorem Fp.abs_toRat_div_two_pow_lt (w : F64) (k : Nat) : |(Fp.ofBits w).toRat / 2 ^ k| < 2 ^ 1024 := by
  have hscale : (0 : ℚ) < 2 ^ k := by positivity
  calc |(Fp.ofBits w).toRat / 2 ^ k| = |(Fp.ofBits w).toRat| / 2 ^ k := by rw [abs_div, abs_of_pos hscale]
    _ ≤ |(Fp.ofBits w).toRat| := div_le_self (abs_nonneg _) (one_le_pow₀ one_le_two)
    _ < 2 ^ 1024 - 2 ^ 970 := Fp.abs_toRat_ofBits_lt w
    _ ≤ 2 ^ 1024 := sub_le_self _ (by positivity)

/-- Scaling a number of magnitude at least 1 down is exact: its exponent stays in the format. -/
theorem Fp.div_pow2_exact {w : F64} (hw : (Fp.ofBits w).finite = true) (hone : 1 ≤ |(Fp.ofBits w).toRat|)
    {k : Nat} (hk : k < 64) :
    ((Fp.ofBits w).div (Fp.pow2 k)).finite = true ∧
      ((Fp.ofBits w).div (Fp.pow2 k)).toRat = (Fp.ofBits w).toRat / 2 ^ k := by
  have hscale := Fp.pow2_toRat hk
  have hnearest := Fp.div_isNearest hw (Fp.pow2_finite hk) (by rw [hscale]; positivity)
  have hlt := Fp.abs_toRat_div_two_pow_lt w k
  have hcan := Fp.ofBits_canonical w
  rw [hscale] at hnearest
  obtain ⟨neg, m, e, hx⟩ := Fp.exists_fin_of_finite hw
  rw [hx] at hnearest hcan hlt hone ⊢
  have hform := Fp.canonical_fin hcan
  have hm : m < 2 ^ 53 := by omega
  rw [Fp.abs_toRat_fin] at hone
  have hexp := exponent_gt_of_one_le hm hone
  rw [div_eq_mul_inv, ← zpow_natCast, ← zpow_neg, Fp.toRat_fin_mul_zpow] at hnearest hlt ⊢
  obtain ⟨b, hfin, hval⟩ := Fp.exists_bits_dyadic neg hm (by omega) hlt
  exact hnearest.toRat_eq hfin hval

/-- An integer that is not 0 does not convert to a number nearer to zero than 1: the number 1 with its sign is nearer to it. -/
theorem Fp.one_le_abs_ofInt {i : Int} (hi : i ≠ 0) (hfin : (Fp.ofInt i).finite = true) :
    1 ≤ |(Fp.ofInt i).toRat| := by
  have hsign : |i.sign| ≤ 2 ^ 53 := by
    rw [Int.abs_sign_of_ne_zero hi]
    decide
  obtain ⟨w, hw, hval⟩ := Fp.exists_bits_int hsign
  obtain ⟨neg, m, e, hx⟩ := Fp.exists_fin_of_finite hfin
  have hnearest := Fp.ofInt_isNearest i
  rw [hx] at hnearest ⊢
  obtain ⟨-, -, hleast⟩ := hnearest
  have hdist := (hleast w hw).1
  rw [hval] at hdist
  rcases hi.lt_or_gt with hneg | hpos
  · have hle : (i : ℚ) ≤ -1 := by exact_mod_cast Int.le_sub_one_of_lt hneg
    have hone : |(-1 : ℚ) - i| = -1 - i := abs_of_nonneg (sub_nonneg.2 hle)
    rw [Int.sign_eq_neg_one_of_neg hneg, Int.cast_neg, Int.cast_one, hone] at hdist
    exact le_abs.2 (.inr (by linarith only [(abs_le.1 hdist).2]))
  · have hle : (1 : ℚ) ≤ i := by exact_mod_cast hpos
    have hone : |(1 : ℚ) - i| = -(1 - i) := abs_of_nonpos (sub_nonpos.2 hle)
    rw [Int.sign_eq_one_of_pos hpos, Int.cast_one, hone] at hdist
    exact le_abs.2 (.inl (by linarith only [(abs_le.1 hdist).1]))

@[simp] theorem Fp.zero_toRat (neg : Bool) : (Fp.zero neg).toRat = 0 := by simp [Fp.zero, Fp.toRat]

theorem Fp.ofInt_zero : Fp.ofInt 0 = Fp.zero false := by decide

theorem Fp.ofInt_zero_div_pow2 {k : Nat} (hk : k < 64) : (Fp.ofInt 0).div (Fp.pow2 k) = Fp.zero false := by
  rw [Fp.ofInt_zero, Fp.pow2_eq_fin hk, Fp.zero, Fp.div_fin _ _ _ _ _ (Nat.two_pow_pos 52).ne', scaleUp,
    Nat.zero_mul]
  rfl

/-- A converted integer scaled down loses nothing further. -/
theorem Fp.ofInt_div_pow2 {i : Int} (hfin : (Fp.ofInt i).finite = true) {k : Nat} (hk : k < 64) :
    ((Fp.ofInt i).div (Fp.pow2 k)).finite = true ∧
      ((Fp.ofInt i).div (Fp.pow2 k)).toRat = (Fp.ofInt i).toRat / 2 ^ k := by
  rcases eq_or_ne i 0 with rfl | hi
  · rw [Fp.ofInt_zero_div_pow2 hk, Fp.ofInt_zero, Fp.zero_toRat, zero_div]
    exact ⟨rfl, rfl⟩
  · obtain ⟨w, hw⟩ := Fp.exists_bits (Fp.ofInt_canonical i) (Fp.ofInt_ne_nan i)
    have hone := Fp.one_le_abs_ofInt hi hfin
    rw [← hw] at hfin hone ⊢
    exact Fp.div_pow2_exact hfin hone hk

/-- No converted integer scaled down is -0.0: the integer 0 gives +0.0 and any other a number that is not 0. -/
theorem Fp.ofInt_div_pow2_ne_neg_zero {i : Int} (hfin : (Fp.ofInt i).finite = true) {k : Nat} (hk : k < 64) :
    (Fp.ofInt i).div (Fp.pow2 k) ≠ Fp.zero true := by
  intro hzero
  rcases eq_or_ne i 0 with rfl | hi
  · rw [Fp.ofInt_zero_div_pow2 hk] at hzero
    cases hzero
  · have hval := (Fp.ofInt_div_pow2 hfin hk).2
    have hone := Fp.one_le_abs_ofInt hi hfin
    rw [hzero, Fp.zero_toRat, eq_comm, div_eq_zero_iff, or_iff_left (by positivity)] at hval
    rw [hval, abs_zero] at hone
    exact absurd hone (by norm_num)

/-! Truncation (42_fixedpoint.md R165). -/

/-- `trunc(q)`: the floor of a number from 0 on, the ceiling of a negative one (00_scope.md R11). -/
def truncRat (q : ℚ) : Int := if 0 ≤ q then ⌊q⌋ else ⌈q⌉

/-- The integer less than one away from a number, on the side of zero, is its truncation. -/
theorem eq_truncRat {q : ℚ} {k : Int} (habs : |(k : ℚ)| ≤ |q|) (hdist : |q - k| < 1)
    (hpos : 0 ≤ q → 0 ≤ k) (hneg : q ≤ 0 → k ≤ 0) : k = truncRat q := by
  obtain ⟨hlo, hhi⟩ := abs_lt.1 hdist
  unfold truncRat
  split
  · next hq =>
    have hk : (0 : ℚ) ≤ k := by exact_mod_cast hpos hq
    rw [abs_of_nonneg hk, abs_of_nonneg hq] at habs
    exact (Int.floor_eq_iff.2 ⟨habs, sub_lt_iff_lt_add'.1 hhi⟩).symm
  · next hq =>
    have hq' : q ≤ 0 := (not_le.1 hq).le
    have hk : (k : ℚ) ≤ 0 := by exact_mod_cast hneg hq'
    rw [abs_of_nonpos hk, abs_of_nonpos hq', neg_le_neg_iff] at habs
    exact (Int.ceil_eq_iff.2 ⟨by linarith only [hlo], habs⟩).symm

theorem truncFin_eq_truncRat (neg : Bool) (m : Nat) (e : Int) :
    truncFin neg m e = truncRat (Fp.fin neg m e).toRat := by
  obtain ⟨habs, hdist, hpos, hneg⟩ := truncFin_toward_zero neg m e
  exact eq_truncRat habs hdist hpos hneg

/-- The truncation of a value in canonical form is itself the value of a pattern: from exponent 0 on the value is an integer, and below it the truncation has at most 53 bits. -/
theorem Fp.exists_bits_truncFin {neg : Bool} {m : Nat} {e : Int} (hcan : (Fp.fin neg m e).canonical = true) :
    ∃ w : F64, (Fp.ofBits w).finite = true ∧ (Fp.ofBits w).toRat = truncFin neg m e := by
  rcases le_total e 0 with he | he
  · obtain ⟨habs, -⟩ := truncFin_toward_zero neg m e
    have hm : m < 2 ^ 53 := by
      have hform := Fp.canonical_fin hcan
      omega
    refine Fp.exists_bits_int ?_
    have hle : |(truncFin neg m e : ℚ)| ≤ 2 ^ 53 := by
      calc |(truncFin neg m e : ℚ)| ≤ m * 2 ^ e := by rwa [Fp.abs_toRat_fin] at habs
        _ ≤ m := mul_le_of_le_one_right m.cast_nonneg (zpow_le_one_of_nonpos₀ one_le_two he)
        _ ≤ 2 ^ 53 := by exact_mod_cast hm.le
    exact_mod_cast hle
  · obtain ⟨w, hfin, hval⟩ := Fp.exists_bits_of_canonical hcan
    obtain ⟨j, rfl⟩ := Int.eq_ofNat_of_zero_le he
    have hfloor : ⌊(m : ℚ) * 2 ^ (j : Int)⌋₊ = m * 2 ^ j := by
      rw [zpow_natCast]
      exact_mod_cast Nat.floor_natCast (m * 2 ^ j)
    refine ⟨w, hfin, ?_⟩
    rw [hval, truncFin_eq_floor, hfloor, signed_cast, Fp.toRat, zpow_natCast]
    push_cast
    ring

/-- The truncation of a value in canonical form converts back exactly. -/
theorem Fp.ofInt_truncFin {neg : Bool} {m : Nat} {e : Int} (hcan : (Fp.fin neg m e).canonical = true) :
    (Fp.ofInt (truncFin neg m e)).finite = true ∧ (Fp.ofInt (truncFin neg m e)).toRat = truncFin neg m e := by
  obtain ⟨w, hfin, hval⟩ := Fp.exists_bits_truncFin hcan
  exact (Fp.ofInt_isNearest _).toRat_eq hfin hval

/-! DECODE_FIXED and ENCODE_FIXED of a field that fits (42_fixedpoint.md R162, R166). -/

theorem exec_encodeFixed_fits {be : Bool} (sg : Bool) {sb n : Nat} (fb : Nat) {s : State} (hs : s.inv = true)
    (h : spanOK be sb n = true) :
    ∃ m : Memory, m.wf = true ∧
      m.frame64 = replaceField s.frame.frame64 (spanLo be sb n) n (s.f2raw (s.scaledValue fb)) ∧
      exec (.encodeFixed be sg sb n fb) s = .next ({ s with frame := m }.respond .ok none) :=
  writeCommand_fits _ hs h

/-- ENCODE_FIXED of a finite product and then DECODE_FIXED answer the truncation, where the field holds it, over the scale. -/
theorem exec_encodeFixed_decodeFixed {be sg : Bool} {sb n fb : Nat} {s : State} (hs : s.inv = true)
    (h : spanOK be sb n = true) (hfb : fb < 64) {neg : Bool} {mant : Nat} {e : Int}
    (hprod : s.scaledValue fb = .fin neg mant e) (hrange : inFieldRange sg n (truncFin neg mant e)) :
    ∃ t u v, exec (.encodeFixed be sg sb n fb) s = .next t ∧
      exec (.decodeFixed be sg sb n fb) t = .next u ∧
      u.responses = s.responses ++ [⟨.ok, none⟩, ⟨.ok, some v⟩] ∧
      (Fp.ofBits v).toRat = (truncFin neg mant e : ℚ) / 2 ^ fb := by
  obtain ⟨hn1, hn, -, -⟩ := span_bounds h
  obtain ⟨m, -, hm, hencode⟩ := exec_encodeFixed_fits sg fb hs h
  have hcan : (Fp.fin neg mant e).canonical = true := hprod ▸ Fp.mul_canonical _ _
  obtain ⟨hfin, hval⟩ := Fp.ofInt_truncFin hcan
  obtain ⟨v, hdecode, hv⟩ := exec_decodeFixed_reads sg fb ({ s with frame := m }.respond .ok none) h
  rw [State.fieldNumber, State.respond_frame, hm, fieldValue_replaceField _ _ h, hprod, State.f2raw_fin,
    readAs_low_bits_of_range hn1 hn hrange] at hv
  refine ⟨_, _, v, hencode, hdecode, List.append_assoc _ _ _, ?_⟩
  rw [hv, (Fp.ofInt_div_pow2 hfin hfb).2, hval]

/-- A number in the range of a field of `n` bits is at most `2^n` in magnitude. -/
theorem abs_le_of_inFieldRange {sg : Bool} {n : Nat} {k : Int} (hn1 : 1 ≤ n) (hn : n ≤ 64)
    (hrange : inFieldRange sg n k) : |k| ≤ 2 ^ n := by
  rw [← readAs_low_bits_of_range hn1 hn hrange]
  exact abs_readAs_le sg (Nat.mod_lt _ (Nat.two_pow_pos n))

/-! The statements. -/

/-- Settles O42: the pattern has the exponent field `1023 + k` and no fraction. -/
theorem scaleIsPowerOfTwo : Obligations.ScaleIsPowerOfTwo := by
  intro k hk
  refine ⟨Fp.pow2_toRat hk, ?_⟩
  have hnan : Fp.pow2 k ≠ .nan := by rw [Fp.pow2_eq_fin hk]; exact Fp.noConfusion
  rw [Nat.shiftLeft_eq]
  exact Fp.toBits_of_ofBits hnan

/-- Settles O51, by the two ways a reading command ends that the statement names. -/
theorem decodeFixedAnswers : Obligations.DecodeFixedAnswers := fun s be sg sb _ fb =>
  ⟨exec_decodeFixed_fits sg fb s, readCommand_badLength be sg sb _ s⟩

/-- Settles O52: the division is exact, and the conversion before it is when the field has at most 53 bits. -/
theorem decodeFixedIsExact : Obligations.DecodeFixedIsExact := by
  intro s be sg sb n fb h hfb
  have hnumber := Fp.ofInt_fieldNumber_finite s sg h
  obtain ⟨v, hrun, hv⟩ := exec_decodeFixed_reads sg fb s h
  obtain ⟨hfin, hval⟩ := Fp.ofInt_div_pow2 hnumber hfb
  refine ⟨_, v, hrun, rfl, by rwa [hv], ?_, fun hn => ?_⟩
  · rintro rfl
    exact Fp.ofInt_div_pow2_ne_neg_zero hnumber hfb (hv.symm.trans (by decide))
  · have habs : |s.fieldNumber be sg sb n| ≤ 2 ^ 53 :=
      (abs_readAs_le sg (fieldValue_lt _ _ n)).trans (pow_le_pow_right₀ (by decide) hn)
    rw [hv, hval, (Fp.ofInt_exact habs).2]

/-- Settles O53: the length check, then the store of the converted product. -/
theorem encodeFixedStores : Obligations.EncodeFixedStores := by
  intro s be sg sb n fb
  refine ⟨fun hs h => ?_, writeCommand_badLength be sb _ s⟩
  obtain ⟨m, hwf, hm, hrun⟩ := exec_encodeFixed_fits sg fb hs h
  refine ⟨m, _, hwf, hm, hrun, fun neg mant e hprod => ?_⟩
  rw [State.scaledValue, State.valueFp, hprod]
  exact s.f2raw_fin neg mant e

/-- Settles O55: the product is exact, so the integer given is its truncation, and both commands carry it through exactly. -/
theorem fixedPointTruncates : Obligations.FixedPointTruncates := by
  intro s be sg sb n fb k hs h hfb hvalue q habs hdist hpos hneg hrange
  obtain ⟨hn1, hn, -, -⟩ := span_bounds h
  have hk : |(k : ℚ)| ≤ 2 ^ 64 := by
    exact_mod_cast (abs_le_of_inFieldRange hn1 hn hrange).trans (pow_le_pow_right₀ (by decide) hn)
  have hlt : |q| < 2 ^ 1024 := by
    calc |q| ≤ |q - k| + |(k : ℚ)| := by simpa using abs_add_le (q - k) k
      _ < 1 + 2 ^ 64 := add_lt_add_of_lt_of_le hdist hk
      _ ≤ 2 ^ 65 := by norm_num
      _ ≤ 2 ^ 1024 := pow_le_pow_right₀ one_le_two (by decide)
  obtain ⟨hfin, hexact⟩ := Fp.mul_pow2_exact hvalue hfb hlt
  obtain ⟨neg, mant, e, hprod⟩ := Fp.exists_fin_of_finite hfin
  rw [hprod] at hexact
  obtain rfl : k = truncFin neg mant e := by
    rw [truncFin_eq_truncRat, hexact]
    exact eq_truncRat habs hdist hpos hneg
  obtain ⟨t, u, v, hencode, hdecode, hresp, hv⟩ := exec_encodeFixed_decodeFixed hs h hfb hprod hrange
  have hscale : (0 : ℚ) < 2 ^ fb := by positivity
  have hval : (Fp.ofBits s.port.value).toRat = q / 2 ^ fb := (mul_div_cancel_right₀ _ hscale.ne').symm
  refine ⟨t, u, v, hencode, hdecode, hresp, hv, ?_, ?_⟩
  · rw [hv, hval, abs_div, abs_div]
    gcongr
  · rw [hv, hval, ← sub_div, abs_div, abs_of_pos hscale]
    gcongr

/-- Settles O54: a product that is an integer is its own truncation. -/
theorem fixedPointRoundTrip : Obligations.FixedPointRoundTrip := by
  intro s be sg sb n fb k hs h hfb hvalue hk hrange
  obtain ⟨t, u, v, hencode, hdecode, hresp, hv, -, -⟩ := fixedPointTruncates s be sg sb n fb k hs h hfb hvalue
    (by rw [hk]) (by rw [hk, sub_self, abs_zero]; exact one_pos) (fun h0 => Int.cast_nonneg_iff.1 (hk ▸ h0))
    (fun h0 => Int.cast_nonpos.1 (hk ▸ h0)) hrange
  refine ⟨t, u, v, hencode, hdecode, hresp, ?_⟩
  rw [hv, ← hk, mul_div_cancel_right₀ _ (by positivity)]

end Sys2Proof.Machine

/-! SUPPORT. Proofs of the statements of 60_exceptions.md: which status a command answers, that an error changes nothing and does not latch, and that a field which leaves the frame is answered OK. -/
namespace Sys2Proof.Machine

/-! When each status of a legal word applies (60_exceptions.md R190, R191); `legalStatus_eq_divisionByZero_iff` is the first of them. -/

theorem lengthStatus_eq_invalidLength_iff (n : Nat) : lengthStatus n = .invalidLength ↔ badLength n := by
  rw [lengthStatus, ← lengthOK_eq_false_iff]
  cases lengthOK n <;> decide

theorem lengthStatus_eq_ok_iff (n : Nat) : lengthStatus n = .ok ↔ ¬ badLength n := by
  rw [lengthStatus, ← lengthOK_iff]
  cases lengthOK n <;> decide

theorem legalStatus_of_not_zero {i : Instr} {s : State} (hzero : ¬ (i.op = 3 ∧ zeroFactor s.port)) :
    legalStatus i s = lengthStatus i.length := by
  rw [← s.factorIsZero_iff] at hzero
  exact if_neg hzero

/-- A status other than DIVISION_BY_ZERO is the one of the length check. -/
theorem lengthStatus_of_legalStatus {i : Instr} {s : State} {st : Status} (h : legalStatus i s = st)
    (hst : st ≠ .divisionByZero) : lengthStatus i.length = st := by
  have hzero := mt (legalStatus_eq_divisionByZero_iff i s).2 (h ▸ hst)
  exact (legalStatus_of_not_zero hzero).symm.trans h

/-! What an error leaves (60_exceptions.md R186, R192). -/

/-- The next state and the one new response of an answer. -/
theorem AnswersWith.next_state {a : Answer} {s t : State} {frame : Memory} {st : Status} {res : Option U64}
    {r : Response} (h : AnswersWith a s frame st res) (ha : a = .next t)
    (hresp : t.responses = s.responses ++ [r]) :
    t = ({ s with frame := frame } : State).respond st res ∧ r = ⟨st, res⟩ := by
  cases ha.symm.trans h
  exact ⟨rfl, (List.singleton_inj.1 (List.append_cancel_left hresp)).symm⟩

theorem exec_error {i : Instr} {s : State} (h : legalStatus i s ≠ .ok) :
    AnswersWith (exec i s) s s.frame (legalStatus i s) none := by
  obtain ⟨frame, res, hrun⟩ := exec_status i s
  obtain ⟨_, _, _, hrun', hends⟩ := exec_ends i s
  obtain ⟨-, hsame⟩ := hrun.next_state hrun' rfl
  cases hsame
  obtain ⟨rfl, rfl⟩ := hends.error h
  exact hrun'

/-- A command answered with an error leaves the state as it was, but for the host's action taken, the command at the port, and the response. -/
theorem step_issue_error {s t : State} {c : Command} {rest : List HostAction} {r : Response}
    (hhost : s.host = .issue c :: rest) (hstep : step s = .next t) (hresp : t.responses = s.responses ++ [r])
    (herr : r.status ≠ .ok) : t = (s.accept c rest).respond r.status none ∧ r.result = none := by
  obtain ⟨_, frame, st, res, hrun, hends⟩ := runCommand_ends (s.accept c rest)
  obtain ⟨rfl, rfl⟩ := AnswersWith.next_state hrun ((step_issue hhost).symm.trans hstep) hresp
  obtain ⟨rfl, rfl⟩ := hends.error herr
  exact ⟨rfl, rfl⟩

/-! A field that leaves the frame (93_implementation_defined.md U1; log entries 6 and 7). -/

theorem readCommand_overflow {be : Bool} (sg : Bool) {sb n : Nat} (f : U64 → U64) (s : State)
    (hlen : ¬ badLength n) (hspan : spanOK be sb n = false) :
    readCommand be sg sb n f s = .next (s.respond .ok (some (s.draw Config.spanResult))) := by
  rcases readCommand_cases be sg sb n f s with ⟨h, -⟩ | ⟨-, -, h⟩ | ⟨-, h, -⟩
  · exact absurd ((lengthOK_eq_false_iff n).1 h) hlen
  · exact h
  · exact absurd h (by simp [hspan])

theorem writeCommand_overflow {be : Bool} {sb n : Nat} (raw : U64) (s : State)
    (hlen : ¬ badLength n) (hspan : spanOK be sb n = false) :
    writeCommand be sb n raw s =
      .next ({ s with frame := Memory.ofFrame64 (s.draw Config.spanFrame) }.respond .ok none) := by
  rcases writeCommand_cases be sb n raw s with ⟨h, -⟩ | ⟨-, -, h⟩ | ⟨-, h, -⟩
  · exact absurd ((lengthOK_eq_false_iff n).1 h) hlen
  · exact h
  · exact absurd h (by simp [hspan])

theorem exec_reader_overflow {i : Instr} (s : State) (hreads : i.writes = false)
    (hlen : ¬ badLength i.length) (hspan : spanPremise i = false) :
    exec i s = .next (s.respond .ok (some (s.draw Config.spanResult))) := by
  cases i with
  | store | encodeLinear | encodeFixed => cases hreads
  | extract be sg sb n => exact readCommand_overflow sg _ s hlen hspan
  | decodeLinear be sg sb n => exact readCommand_overflow sg _ s hlen hspan
  | decodeFixed be sg sb n fb => exact readCommand_overflow sg _ s hlen hspan

theorem exec_writer_overflow {i : Instr} {s : State} (hwrites : i.writes = true)
    (hlen : ¬ badLength i.length) (hspan : spanPremise i = false) (hzero : ¬ (i.op = 3 ∧ zeroFactor s.port)) :
    exec i s = .next ({ s with frame := Memory.ofFrame64 (s.draw Config.spanFrame) }.respond .ok none) := by
  cases i with
  | extract | decodeLinear | decodeFixed => cases hwrites
  | store be sg sb n => exact writeCommand_overflow _ s hlen hspan
  | encodeFixed be sg sb n fb => exact writeCommand_overflow _ s hlen hspan
  | encodeLinear be sg sb n =>
    have hfactor : ¬ zeroFactor s.port := fun h => hzero ⟨rfl, h⟩
    exact (exec_encodeLinear_nonzero be sg sb n hfactor).trans (writeCommand_overflow _ s hlen hspan)

/-! The statements. -/

/-- Settles O21: an illegal word raises its own error, and a legal one answers with `legalStatus`. -/
theorem statusIsFirstThatApplies : Obligations.StatusIsFirstThatApplies := by
  intro s c rest hhost
  cases hdec : decode c.cmd with
  | error e => exact ⟨_, _, step_issue_illegal hhost hdec, rfl, fun _ => rfl, nofun⟩
  | ok i =>
    obtain ⟨frame, res, hexec⟩ := exec_status i (s.accept c rest)
    refine ⟨_, _, (stepRunsDecodedCommand s c rest i hhost hdec).trans hexec, rfl, nofun, ?_⟩
    rintro _ ⟨⟩
    refine ⟨(legalStatus_eq_divisionByZero_iff i (s.accept c rest)).2, fun hzero hbad => ?_, fun hzero hgood => ?_⟩
    · exact (legalStatus_of_not_zero hzero).trans ((lengthStatus_eq_invalidLength_iff _).2 hbad)
    · exact (legalStatus_of_not_zero hzero).trans ((lengthStatus_eq_ok_iff _).2 hgood)

/-- Settles O23: the status is the one of the length check, and an error changes nothing (`exec_error`). -/
theorem invalidLengthRejected : Obligations.InvalidLengthRejected := by
  refine ⟨fun i s hbad hzero => ?_, fun i s t r hexec hresp hst => ?_⟩
  · have hst : legalStatus i s = .invalidLength :=
      (legalStatus_of_not_zero hzero).trans ((lengthStatus_eq_invalidLength_iff _).2 hbad)
    exact hst ▸ exec_error (by simp [hst])
  · obtain ⟨frame, res, hrun⟩ := exec_status i s
    obtain ⟨-, rfl⟩ := hrun.next_state hexec hresp
    exact (lengthStatus_eq_invalidLength_iff _).1 (lengthStatus_of_legalStatus hst (by decide))

/-- Settles O24, by what an error leaves (`step_issue_error`). -/
theorem noErrorChangesTheFrame : Obligations.NoErrorChangesTheFrame := by
  intro s t c rest r hhost hstep hresp herr
  obtain ⟨rfl, hnone⟩ := step_issue_error hhost hstep hresp herr
  exact ⟨rfl, hnone⟩

/-- Settles O25: after the error the second command finds the frame, its operands and the draw counter that it would without it, and these decide its effect (`runCommand_sameEffect`). -/
theorem errorsDoNotLatch : Obligations.ErrorsDoNotLatch := by
  intro s t u c d rest r hhost hstep hresp herr hnext
  obtain ⟨rfl, -⟩ := step_issue_error hhost hstep hresp herr
  obtain ⟨frame, st, res, hafter, hwithout⟩ := runCommand_sameEffect
    (s := ((s.accept c (.issue d :: rest)).respond r.status none).accept d rest)
    (s' := { s with draws := s.draws + 1 }.accept d rest) rfl rfl rfl
  cases ((step_issue rfl).symm.trans hnext).symm.trans hafter
  refine ⟨_, ⟨st, res⟩, (step_issue rfl).trans hwithout, rfl, rfl, rfl, ?_, rfl⟩
  exact (congrArg (· ++ [⟨st, res⟩]) hresp).trans (List.append_assoc _ _ _)

/-- Settles O56: a reading command answers with a drawn result, a writing one with a drawn frame, which is built canonical. -/
theorem spanOverflowGoesOn : Obligations.SpanOverflowGoesOn := fun _ s hlen hspan hzero =>
  ⟨fun hreads => ⟨_, exec_reader_overflow s hreads hlen hspan⟩,
    fun hwrites => ⟨_, Memory.wf_ofFrame64 _, exec_writer_overflow hwrites hlen hspan hzero⟩⟩

/-- Settles O19, by the four codes of Config. -/
theorem statusCodes : Obligations.StatusCodes := ⟨rfl, rfl, rfl, rfl⟩

end Sys2Proof.Machine

/-! SUPPORT. Proof of the statement of 70_reset_and_hazards.md. A reset of the idle block (R210) finds nothing to do: the block holds nothing between two commands that a reset could initialise. -/
namespace Sys2Proof.Machine

@[simp] theorem hostReset_eq_next (s : State) : hostReset s = .next s := rfl

/-- Settles O12: the step takes the action from the host's list, and the reset answers the state it finds. -/
theorem blockResetChangesNothing : Obligations.BlockResetChangesNothing := fun s rest hhost =>
  calc step s = hostReset (s.advance rest) := step_resetBlock hhost
    _ = .next (s.advance rest) := hostReset_eq_next _
    _ = .next { s with host := rest } := rfl

end Sys2Proof.Machine
